-- ==== Sys2Proof/Word.lean ====
section
/-! DEFINITION. The word types of the ADPCM decoder engine (spec 00_scope.md R5, R6). -/

namespace Sys2Proof

/-- The 10-bit command word CW = (init, code_valid, code[7:0]) (30_encoding.md R50). -/
abbrev CommandWord := BitVec 10

/-- The 8-bit code input word w = CW[7:0] (30_encoding.md R52). -/
abbrev CodeWord := BitVec 8

/-- A valid code, 0 to 15: bit 3 the sign, bits 2 to 0 the magnitude (30_encoding.md R51). -/
abbrev Code := BitVec 4

/-- A 16-bit two's complement word: the predictor and the sample (10_state.md R12, R19). -/
abbrev Sample := BitVec 16

/-- The step index: a type with exactly 89 values, as 10_state.md R13 asks of a model. -/
abbrev StepIndex := Fin 89

end Sys2Proof
end

