-- ==== Sys2Proof/Syntax.lean ====
section
/-! DEFINITION. The operations of the engine: one constructor per row of spec/opcode_table.json. -/

namespace Sys2Proof

/-- The operations that a command word selects (30_encoding.md R54). No DEC has an operand: the
code is part of the operation's name. INITDEC's operand is the whole code word w = CW[7:0], as
40_control.md R67 has it; a well-formed one is a valid code. -/
inductive Instr where
  | idle
  | init
  | dec0
  | dec1
  | dec2
  | dec3
  | dec4
  | dec5
  | dec6
  | dec7
  | dec8
  | dec9
  | dec10
  | dec11
  | dec12
  | dec13
  | dec14
  | dec15
  | initdec (w : CodeWord)
  deriving DecidableEq, Repr

end Sys2Proof
end

