-- ==== Sys2Proof/WellFormed.lean ====
section
/-! DEFINITION. Which instructions are well formed: those a row of spec/opcode_table.json encodes. -/

namespace Sys2Proof

/-- INITDEC takes "c in 0 to 15" (30_encoding.md R54, R58); the other operations have no operand
to check. -/
def Instr.wf : Instr → Bool
  | .idle => true
  | .init => true
  | .dec0 => true
  | .dec1 => true
  | .dec2 => true
  | .dec3 => true
  | .dec4 => true
  | .dec5 => true
  | .dec6 => true
  | .dec7 => true
  | .dec8 => true
  | .dec9 => true
  | .dec10 => true
  | .dec11 => true
  | .dec12 => true
  | .dec13 => true
  | .dec14 => true
  | .dec15 => true
  | .initdec w => decide (w.toNat ≤ 15)

end Sys2Proof
end

