-- ==== Sys2Proof/Decode.lean ====
section
/-! DEFINITION. From command words to instructions and back (spec 30_encoding.md R50, R54, R55, R58).
The decoder follows the match and mask of R54; the encoder the canonical words of R58. -/

namespace Sys2Proof

/-- The field `init`, CW[9] (R50). -/
def cwInit (cw : CommandWord) : Bool := cw.getLsbD 9

/-- The field `code_valid`, CW[8] (R50). -/
def cwCodeValid (cw : CommandWord) : Bool := cw.getLsbD 8

/-- The field `code`, w = CW[7:0] (R50). -/
def cwCode (cw : CommandWord) : CodeWord := cw.setWidth 8

/-- The command word made of the three input ports `init`, `code_valid` and `code` (R50, R60). -/
def cwOf (init codeValid : Bool) (w : CodeWord) : CommandWord :=
  BitVec.ofBool init ++ BitVec.ofBool codeValid ++ w

/-- Why a command word encodes no operation (R54, last two rows; R55): an invalid code w, without
or with `init`. -/
inductive Illegal where
  | invalidCode (w : CodeWord)
  | initInvalidCode (w : CodeWord)
  deriving DecidableEq, Repr

/-- One row of the opcode map: the words cw with cw AND mask = pattern are the instruction
`build cw`. -/
structure Row where
  mask : CommandWord
  pattern : CommandWord
  build : CommandWord → Instr

/-- The opcode map as match and mask (R54). -/
def opcodeRows : List Row :=
  [⟨0x300#10, 0x000#10, fun _ => .idle⟩, ⟨0x300#10, 0x200#10, fun _ => .init⟩]
  ++ [⟨0x3FF#10, 0x100#10, fun _ => .dec0⟩, ⟨0x3FF#10, 0x101#10, fun _ => .dec1⟩,
      ⟨0x3FF#10, 0x102#10, fun _ => .dec2⟩, ⟨0x3FF#10, 0x103#10, fun _ => .dec3⟩,
      ⟨0x3FF#10, 0x104#10, fun _ => .dec4⟩, ⟨0x3FF#10, 0x105#10, fun _ => .dec5⟩,
      ⟨0x3FF#10, 0x106#10, fun _ => .dec6⟩, ⟨0x3FF#10, 0x107#10, fun _ => .dec7⟩]
  ++ [⟨0x3FF#10, 0x108#10, fun _ => .dec8⟩, ⟨0x3FF#10, 0x109#10, fun _ => .dec9⟩,
      ⟨0x3FF#10, 0x10A#10, fun _ => .dec10⟩, ⟨0x3FF#10, 0x10B#10, fun _ => .dec11⟩,
      ⟨0x3FF#10, 0x10C#10, fun _ => .dec12⟩, ⟨0x3FF#10, 0x10D#10, fun _ => .dec13⟩,
      ⟨0x3FF#10, 0x10E#10, fun _ => .dec14⟩, ⟨0x3FF#10, 0x10F#10, fun _ => .dec15⟩]
  ++ [⟨0x3F0#10, 0x300#10, fun cw => .initdec (cwCode cw)⟩]

/-- The name of the rejection of a word that matches no row (R54: it "has code_valid = 1 and
hi != 0 and is the invalid code of the last two rows"). -/
def illegalOf (cw : CommandWord) : Illegal :=
  if cwInit cw then .initInvalidCode (cwCode cw) else .invalidCode (cwCode cw)

/-- The decoder, total on every command word (R54). -/
def decode (cw : CommandWord) : Except Illegal Instr :=
  match opcodeRows.find? (fun r => cw &&& r.mask == r.pattern) with
  | some r => .ok (r.build cw)
  | none => .error (illegalOf cw)

/-- The canonical command word of an instruction (R58). -/
def encode : Instr → CommandWord
  | .idle => 0x000#10
  | .init => 0x200#10
  | .dec0 => 0x100#10
  | .dec1 => 0x101#10
  | .dec2 => 0x102#10
  | .dec3 => 0x103#10
  | .dec4 => 0x104#10
  | .dec5 => 0x105#10
  | .dec6 => 0x106#10
  | .dec7 => 0x107#10
  | .dec8 => 0x108#10
  | .dec9 => 0x109#10
  | .dec10 => 0x10A#10
  | .dec11 => 0x10B#10
  | .dec12 => 0x10C#10
  | .dec13 => 0x10D#10
  | .dec14 => 0x10E#10
  | .dec15 => 0x10F#10
  | .initdec w => cwOf true true w

/-- The canonical word of a command word: CW[7:0] cleared where `code_valid` = 0, since the engine
does not look at it then (R56, R58). -/
def canonicalWord (cw : CommandWord) : CommandWord :=
  if cwCodeValid cw then cw else cw &&& 0x300#10

/-- The command word in the low `nbits` bits of w, none where those bits do not fit the 10 wires of
the command port: such a number is no command word (R50) and is not wrapped into one. -/
def tableWord? (nbits w : Nat) : Option CommandWord :=
  if w % 2 ^ nbits < 1024 then some (BitVec.ofNat 10 (w % 2 ^ nbits)) else none

/-- The instruction the decoder reads from a word numbered as spec/opcode_table.json numbers it.
The engine has no byte order (20_memory.md R43), so the word stands as it is. -/
def decodeTableWord (nbits w : Nat) : Option Instr :=
  match tableWord? nbits w with
  | some cw =>
    match decode cw with
    | .ok i => some i
    | .error _ => none
  | none => none

end Sys2Proof
end

