-- ==== Sys2Proof/Config.lean ====
section
/-! DEFINITION. The implementation parameters (spec 00_scope.md R5) and the type of the parameter
STEP_TABLE with its admissibility check (20_memory.md R31, R32, R34). The default value of the
parameter stands in Machine/Tables.lean. -/

namespace Sys2Proof.Config

/-- PRED_MIN (R5): the lower bound of the predictor clamp. -/
def predMin : Int := -32768

/-- PRED_MAX (R5): the upper bound of the predictor clamp. -/
def predMax : Int := 32767

/-- IDX_MIN (R5): the lower bound of the index clamp. -/
def idxMin : Int := 0

/-- IDX_MAX (R5): the upper bound of the index clamp. -/
def idxMax : Int := 88

/-- "the sequence is non-decreasing" (R31). -/
def nonDecreasing : List Nat → Bool
  | [] => true
  | [_] => true
  | a :: b :: rest => decide (a ≤ b) && nonDecreasing (b :: rest)

/-- What R31, R32 and R34 ask of a value of STEP_TABLE: 89 entries, entry 0 equal to 7, every
entry in [1, 32767], no decreasing pair. -/
def admissible (entries : List Nat) : Bool :=
  entries.length == 89 && entries.head? == some 7
    && entries.all (fun e => decide (1 ≤ e) && decide (e ≤ 32767)) && nonDecreasing entries

/-- A value of the parameter STEP_TABLE. One that fails the check cannot be built (R34). -/
structure StepTable where
  entries : List Nat
  ok : admissible entries = true
  deriving DecidableEq, Repr

/-- A STEP_TABLE argument given as a list: refused (none) where R34 says "the model refuses it". -/
def stepTableOf? (entries : List Nat) : Option StepTable :=
  if h : admissible entries = true then some ⟨entries, h⟩ else none

theorem StepTable.length_entries (T : StepTable) : T.entries.length = 89 := by
  have h := T.ok
  simp only [admissible, Bool.and_eq_true, beq_iff_eq] at h
  exact h.1.1.1

end Sys2Proof.Config
end

