-- ==== Sys2Proof/Machine/Tables.lean ====
section
/-! DEFINITION. The two table memories and their reads (spec 20_memory.md R30 to R42). -/

namespace Sys2Proof.Machine

open Sys2Proof.Config

/-- The default of STEP_TABLE, row by row as R33 lists it. Entry 0 is the source's (R32); entries
1 to 88 are PRESUMED: the spec itself supplies them from general knowledge (log 6). -/
def stepEntries : List Nat :=
  [7, 8, 9, 10, 11, 12, 13, 14, 16, 17]
  ++ [19, 21, 23, 25, 28, 31, 34, 37, 41, 45]
  ++ [50, 55, 60, 66, 73, 80, 88, 97, 107, 118]
  ++ [130, 143, 157, 173, 190, 209, 230, 253, 279, 307]
  ++ [337, 371, 408, 449, 494, 544, 598, 658, 724, 796]
  ++ [876, 963, 1060, 1166, 1282, 1411, 1552, 1707, 1878, 2066]
  ++ [2272, 2499, 2749, 3024, 3327, 3660, 4026, 4428, 4871, 5358]
  ++ [5894, 6484, 7132, 7845, 8630, 9493, 10442, 11487, 12635, 13899]
  ++ [15289, 16818, 18500, 20350, 22385, 24623, 27086, 29794, 32767]

/-- The default of the parameter STEP_TABLE: the table of `State.reset`. -/
def stepTable : StepTable := ⟨stepEntries, by decide⟩

/-- The Index Adjustment Table, indexed by the code (R36). -/
def adjEntries : List Int := [-1, -1, -1, -1, 2, 4, 6, 8, -1, -1, -1, -1, 2, 4, 6, 8]

/-- `StepRead(i)` (R38): its domain is the 89 indices, so no value outside exists (R40). -/
def stepRead (T : StepTable) (i : StepIndex) : Nat :=
  T.entries[i.val]'(by rw [T.length_entries]; exact i.isLt)

/-- `AdjRead(c)` (R39): its domain is the 16 codes. -/
def adjRead (c : Code) : Int :=
  adjEntries[c.toNat]'c.isLt

end Sys2Proof.Machine
end

