-- ==== Sys2Proof/Machine/State.lean ====
section
/-! DEFINITION. The state of the engine (spec 10_state.md R10 to R23), its inputs, its faults and
refusals, and the state after RESET (10_state.md R21, 70_reset_and_hazards.md R130, R131). -/

namespace Sys2Proof.Machine

open Sys2Proof.Config

/-- One event the host presents at one clock edge (30_encoding.md R60, 70_reset_and_hazards.md R130,
R140). -/
inductive Event where
  /-- `rst` sampled 1; `port` is whatever stands on `init`, `code_valid` and `code`, ignored (R130). -/
  | reset (port : CommandWord)
  /-- `rst` sampled 0: one command word is accepted (R60). -/
  | command (cw : CommandWord)
  deriving DecidableEq, Repr

/-- The state. `pred`, `idx` and `err` are the whole state of the engine (R10); `sampleValid` is the
output pin `sample_valid` (R19, R140; DEDUCED, log 4); `samples` and `inputs` are the model's own
record of the two ends of the engine, its output and its input sequence (R140; DESIGN CHOICE,
logs 1, 3); `table` is no state of the engine but its parameter STEP_TABLE, held here so that a step
takes it as an argument (R20, 00_scope.md R5; DESIGN CHOICE, log 16). -/
structure State where
  /-- PRED, the predictor, two's complement (R12). -/
  pred : Sample
  /-- IDX, the step index (R13). -/
  idx : StepIndex
  /-- ERR, the sticky fault flag (R15). -/
  err : Bool
  /-- The pin `sample_valid`: the last event completed a DEC. -/
  sampleValid : Bool
  /-- The samples emitted so far, oldest first. -/
  samples : List Sample
  /-- The events still to come, oldest first. -/
  inputs : List Event
  /-- The parameter STEP_TABLE of this engine: any admissible table. Every step reads it from here and
  none writes it (20_memory.md R42). -/
  table : StepTable
  deriving DecidableEq, Repr

/-- Reasons for a step to stop with a fault: none. The engine's one exception, InvalidCode, is taken
(60_exceptions.md R113) and "Nothing else in the engine can fault" (R110), so this type has no
constructor. Safe: no claim can be proved from a stop (log 8). -/
inductive Fault where
  deriving DecidableEq, Repr

/-- Reasons for an instruction to have no meaning. -/
inductive Refusal where
  /-- Raised by an arm of `exec` whose instruction has no meaning yet: by none in this model. Safe. -/
  | notModelled (mnemonic : String)
  deriving DecidableEq, Repr

/-- The state after RESET (R21, R131) of the engine with the table `T`. `samples` and `inputs` are
empty: DESIGN CHOICE, log 5. -/
def State.resetWith (T : StepTable) : State :=
  { pred := 0, idx := 0, err := false, sampleValid := false, samples := [], inputs := [], table := T }

/-- The state after RESET of the engine with the default table (20_memory.md R33; PRESUMED, log 6). -/
def State.reset : State := State.resetWith stepTable

end Sys2Proof.Machine
end

