-- ==== Sys2Proof/Machine/Flags.lean ====
section
/-! DEFINITION. The one flag, ERR: who sets, clears and reads it (spec 10_state.md R15,
60_exceptions.md R112, R113, R114). No arithmetic result sets a flag (R15). -/

namespace Sys2Proof.Machine

/-- ERR <- 1, done by the fault entry and by nothing else (R15). -/
def State.setErr (s : State) : State := { s with err := true }

/-- ERR <- 0, done by RESET, INIT and INITDEC and by nothing else (R15). -/
def State.clearErr (s : State) : State := { s with err := false }

/-- The frozen condition, ERR = 1 (R114). -/
def frozen (s : State) : Bool := s.err

/-- The cause code where a number is wanted: InvalidCode is 1, no fault is 0 (R112). -/
def causeCode (s : State) : Nat := if s.err then 1 else 0

end Sys2Proof.Machine
end

