-- ==== Sys2Proof/Machine/Operands.lean ====
section
/-! DEFINITION. The operand of a command: the code, its validity and its four bits
(spec 30_encoding.md R51, R52, R53). -/

namespace Sys2Proof.Machine

/-- "A word w = CW[7:0] is a valid code if and only if w <= 15" (R52). -/
def validCode (w : CodeWord) : Bool := decide (w.toNat ≤ 15)

/-- The code of a valid code word, CW[3:0] (R51). Used only after `validCode`: the engine never
masks an invalid word (60_exceptions.md R119). -/
def codeOf (w : CodeWord) : Code := w.setWidth 4

/-- The sign bit `s`, bit 3 of the code (R51). -/
def signBit (c : Code) : Bool := c.getLsbD 3

/-- Magnitude bit `m2`, which gates `step` (R53). -/
def magBit2 (c : Code) : Bool := c.getLsbD 2

/-- Magnitude bit `m1`, which gates `step >> 1` (R53). -/
def magBit1 (c : Code) : Bool := c.getLsbD 1

/-- Magnitude bit `m0`, which gates `step >> 2` (R53). -/
def magBit0 (c : Code) : Bool := c.getLsbD 0

/-- `a >> k`, which is floor(a / 2^k) (00_scope.md R7). -/
def shiftRight (a k : Nat) : Nat := a / 2 ^ k

end Sys2Proof.Machine
end

