-- ==== Sys2Proof/Machine/Ops.lean ====
section
/-! DEFINITION. The named operations that the meanings share: register writes, the sample output, the
input port, the arithmetic of the decode step (spec 41_decode_step.md R70 to R78), INIT
(40_control.md R66), RESET (70_reset_and_hazards.md R130) and taking the exception InvalidCode
(60_exceptions.md R113). The step table is the parameter that the state carries (00_scope.md R5,
log 16). -/

namespace Sys2Proof.Machine

open Sys2Proof.Config

/-! ### Registers, output and input -/

/-- PRED <- p and IDX <- i, together (00_scope.md R8). -/
def State.setRegs (p : Sample) (i : StepIndex) (s : State) : State := { s with pred := p, idx := i }

/-- `emit(v)`: one sample on the sample output (R8, 10_state.md R19). -/
def State.emit (v : Sample) (s : State) : State :=
  { s with sampleValid := true, samples := s.samples ++ [v] }

/-- No sample from this event: `sample_valid` = 0 (R19, 70_reset_and_hazards.md R140). -/
def State.quiet (s : State) : State := { s with sampleValid := false }

/-- The event at the ports, none where the host presents nothing more. -/
def nextInput (s : State) : Option Event := s.inputs.head?

/-- The event at the ports is taken; the next one comes up. -/
def State.dropInput (s : State) : State := { s with inputs := s.inputs.tail }

/-- The host presents a command word before all events still to come. -/
def State.pushCommand (cw : CommandWord) (s : State) : State :=
  { s with inputs := .command cw :: s.inputs }

/-! ### The arithmetic of the decode step, on exact integers (R6, R80) -/

/-- `clamp(v, lo, hi)`: saturate, not wrap (00_scope.md R7). -/
def clamp (v lo hi : Int) : Int := if v < lo then lo else if hi < v then hi else v

theorem clamp_bounds (v lo hi : Int) (h : lo ≤ hi) : lo ≤ clamp v lo hi ∧ clamp v lo hi ≤ hi := by
  unfold clamp
  split
  · omega
  · split <;> omega

/-- Steps 2 to 5: the difference (R72). Each shift truncates on its own; then the terms are added. -/
def difference (step : Nat) (c : Code) : Nat :=
  let diff := shiftRight step 3
  let diff := if magBit2 c then diff + step else diff
  let diff := if magBit1 c then diff + shiftRight step 1 else diff
  if magBit0 c then diff + shiftRight step 2 else diff

/-- Step 6: the predictor update (R73), an exact integer that is not stored. -/
def updatedPredictor (p : Int) (diff : Nat) (c : Code) : Int :=
  if signBit c then p - diff else p + diff

/-- Step 7: the predictor clamp (R74). -/
def clampPredictor (sum : Int) : Int := clamp sum predMin predMax

/-- Step 8: the index update (R75), an exact integer that is not stored. -/
def updatedIndex (i : StepIndex) (c : Code) : Int := (i.val : Int) + adjRead c

/-- Step 9: the index clamp (R76). -/
def clampIndex (nidx : Int) : StepIndex :=
  ⟨(clamp nidx idxMin idxMax).toNat, by
    have h := clamp_bounds nidx idxMin idxMax (by decide)
    simp only [idxMin, idxMax] at h ⊢
    omega⟩

/-! ### The commands' common parts -/

/-- The whole decode step `DecStep(c)` (R78). Reads see the registers from before the command. -/
def decStep (c : Code) (s : State) : State :=
  let step := stepRead s.table s.idx
  let diff := difference step c
  let sum := updatedPredictor s.pred.toInt diff c
  let npred := BitVec.ofInt 16 (clampPredictor sum)
  let nidx := updatedIndex s.idx c
  (s.setRegs npred (clampIndex nidx)).emit npred

/-- Taking the exception: `raise InvalidCode(w)` (60_exceptions.md R113). ERR <- 1, PRED and IDX
unchanged, no emit, no transfer of control; the offending word is not recorded (R112). -/
def raiseInvalidCode (_w : CodeWord) (s : State) : State := s.setErr.quiet

/-- The fresh state (10_state.md R21): PRED <- 0, IDX <- 0, ERR <- 0, no emit. This is also the only
return from the frozen condition (60_exceptions.md R115). -/
def freshStart (s : State) : State := (s.setRegs 0 0).clearErr.quiet

/-- RESET (70_reset_and_hazards.md R130): "Its effect is that of INIT"; the word on the port is
ignored. -/
def resetEvent (_port : CommandWord) (s : State) : State := freshStart s

/-- Admission of a decode command word with code w (R70): frozen first, then the validity test, then
the step. -/
def decodeCommand (w : CodeWord) (s : State) : State :=
  if frozen s then s.quiet
  else if validCode w then decStep (codeOf w) s
  else raiseInvalidCode w s

/-- INITDEC w (40_control.md R67): INIT, then the decode command with code w, as one command. -/
def initDecode (w : CodeWord) (s : State) : State :=
  decodeCommand w (freshStart s)

/-- A command word that encodes no operation (30_encoding.md R54, last two rows; 60_exceptions.md
R111). -/
def takeIllegal (r : Illegal) (s : State) : State :=
  match r with
  | .invalidCode w => decodeCommand w s
  | .initInvalidCode w => initDecode w s

end Sys2Proof.Machine
end

