-- ==== Sys2Proof/Machine/Control.lean ====
section
/-! DEFINITION. The control operations IDLE, INIT and INITDEC (spec 40_control.md). -/

namespace Sys2Proof.Machine

/-- IDLE (R65): no reads, no writes, no emit. -/
def execIdle (s : State) : Host.Outcome State Fault Refusal := .next s.quiet

/-- INIT (R66): PRED, IDX, ERR <- 0, no emit. -/
def execInit (s : State) : Host.Outcome State Fault Refusal := .next (freshStart s)

/-- INITDEC w (R67), for every code word w: with w above 15 its second part raises InvalidCode. -/
def execInitdec (w : CodeWord) (s : State) : Host.Outcome State Fault Refusal :=
  .next (initDecode w s)

end Sys2Proof.Machine
end

