-- ==== Sys2Proof/Machine/Dec.lean ====
section
/-! DEFINITION. The decode operations DEC0 to DEC15 (spec 41_decode_step.md, part 2). Each is the
admission of its command word (R70) with its own code: nothing on a frozen engine, else the whole
step (R78) with the code's four bits. -/

namespace Sys2Proof.Machine

/-- DEC0 (R84): code 0b0000. -/
def execDec0 (s : State) : Host.Outcome State Fault Refusal :=
  .next (decodeCommand 0x00#8 s)

/-- DEC1 (R85): code 0b0001. -/
def execDec1 (s : State) : Host.Outcome State Fault Refusal :=
  .next (decodeCommand 0x01#8 s)

/-- DEC2 (R86): code 0b0010. -/
def execDec2 (s : State) : Host.Outcome State Fault Refusal :=
  .next (decodeCommand 0x02#8 s)

/-- DEC3 (R87): code 0b0011. -/
def execDec3 (s : State) : Host.Outcome State Fault Refusal :=
  .next (decodeCommand 0x03#8 s)

/-- DEC4 (R88): code 0b0100. -/
def execDec4 (s : State) : Host.Outcome State Fault Refusal :=
  .next (decodeCommand 0x04#8 s)

/-- DEC5 (R89): code 0b0101. -/
def execDec5 (s : State) : Host.Outcome State Fault Refusal :=
  .next (decodeCommand 0x05#8 s)

/-- DEC6 (R90): code 0b0110. -/
def execDec6 (s : State) : Host.Outcome State Fault Refusal :=
  .next (decodeCommand 0x06#8 s)

/-- DEC7 (R91): code 0b0111. -/
def execDec7 (s : State) : Host.Outcome State Fault Refusal :=
  .next (decodeCommand 0x07#8 s)

/-- DEC8 (R92): code 0b1000. -/
def execDec8 (s : State) : Host.Outcome State Fault Refusal :=
  .next (decodeCommand 0x08#8 s)

/-- DEC9 (R93): code 0b1001. -/
def execDec9 (s : State) : Host.Outcome State Fault Refusal :=
  .next (decodeCommand 0x09#8 s)

/-- DEC10 (R94): code 0b1010. -/
def execDec10 (s : State) : Host.Outcome State Fault Refusal :=
  .next (decodeCommand 0x0A#8 s)

/-- DEC11 (R95): code 0b1011. -/
def execDec11 (s : State) : Host.Outcome State Fault Refusal :=
  .next (decodeCommand 0x0B#8 s)

/-- DEC12 (R96): code 0b1100. -/
def execDec12 (s : State) : Host.Outcome State Fault Refusal :=
  .next (decodeCommand 0x0C#8 s)

/-- DEC13 (R97): code 0b1101. -/
def execDec13 (s : State) : Host.Outcome State Fault Refusal :=
  .next (decodeCommand 0x0D#8 s)

/-- DEC14 (R98): code 0b1110. -/
def execDec14 (s : State) : Host.Outcome State Fault Refusal :=
  .next (decodeCommand 0x0E#8 s)

/-- DEC15 (R99): code 0b1111. -/
def execDec15 (s : State) : Host.Outcome State Fault Refusal :=
  .next (decodeCommand 0x0F#8 s)

end Sys2Proof.Machine
end

