-- ==== Sys2Proof/Machine/Dispatch.lean ====
section
/-! DEFINITION. Dispatch: one arm per operation. -/

namespace Sys2Proof.Machine

def exec (i : Instr) (s : State) : Host.Outcome State Fault Refusal :=
  match i with
  | .idle => Sys2Proof.Machine.execIdle s
  | .init => Sys2Proof.Machine.execInit s
  | .dec0 => Sys2Proof.Machine.execDec0 s
  | .dec1 => Sys2Proof.Machine.execDec1 s
  | .dec2 => Sys2Proof.Machine.execDec2 s
  | .dec3 => Sys2Proof.Machine.execDec3 s
  | .dec4 => Sys2Proof.Machine.execDec4 s
  | .dec5 => Sys2Proof.Machine.execDec5 s
  | .dec6 => Sys2Proof.Machine.execDec6 s
  | .dec7 => Sys2Proof.Machine.execDec7 s
  | .dec8 => Sys2Proof.Machine.execDec8 s
  | .dec9 => Sys2Proof.Machine.execDec9 s
  | .dec10 => Sys2Proof.Machine.execDec10 s
  | .dec11 => Sys2Proof.Machine.execDec11 s
  | .dec12 => Sys2Proof.Machine.execDec12 s
  | .dec13 => Sys2Proof.Machine.execDec13 s
  | .dec14 => Sys2Proof.Machine.execDec14 s
  | .dec15 => Sys2Proof.Machine.execDec15 s
  | .initdec w => Sys2Proof.Machine.execInitdec w s

end Sys2Proof.Machine
end

