-- ==== Sys2Proof/Machine/Step.lean ====
section
/-! DEFINITION. One step: one event (spec 20_memory.md R46, 70_reset_and_hazards.md R140). -/

namespace Sys2Proof.Machine

/-- One step takes the event at the ports. A RESET event resets (70_reset_and_hazards.md R130); a
command word is decoded and executed, or takes the exception where it encodes no operation
(30_encoding.md R54). Where the host presents nothing more, the cycle carries IDLE (R60, R141;
DEDUCED, log 2). -/
def step (s : State) : Host.Outcome State Fault Refusal :=
  match nextInput s with
  | none => exec .idle s.dropInput
  | some (.reset port) => .next (resetEvent port s.dropInput)
  | some (.command cw) =>
    match decode cw with
    | .ok i => exec i s.dropInput
    | .error r => .next (takeIllegal r s.dropInput)

/-- The host presents a table word next: the engine fetches nothing, so the next instruction is the
word at the command port (10_state.md R17; log 12). A number that is no command word cannot be
presented. -/
def State.withFetchWord (s : State) (nbits w : Nat) : State :=
  match tableWord? nbits w with
  | some cw => s.pushCommand cw
  | none => s

end Sys2Proof.Machine
end

