-- ==== Sys2Proof/Machine/Outputs.lean ====
section
/-! DEFINITION. The output pins (spec 10_state.md R16, R19; 30_encoding.md R60; 60_exceptions.md R127). -/

namespace Sys2Proof.Machine

/-- `pred_o[15:0]` = sext_16(PRED) (R16). -/
def predO (s : State) : BitVec 16 := s.pred

/-- `idx_o[6:0]` = zext_7(IDX) (R16). -/
def idxO (s : State) : BitVec 7 := BitVec.ofNat 7 s.idx.val

/-- `err` = ERR (R16, R127). -/
def errO (s : State) : Bool := s.err

/-- `sample_valid` (R19). -/
def sampleValidO (s : State) : Bool := s.sampleValid

/-- `sample[15:0]` = sext_16(PRED) (R19). -/
def sampleO (s : State) : BitVec 16 := s.pred

end Sys2Proof.Machine
end

