-- ==== Sys2Proof/Machine/Pseudo.lean ====
section
/-! DEFINITION. The pseudo-operations and the assembler's command sequences (spec 30_encoding.md R58,
R59), and the upstream nibble splitter's contract (42_frame_decode.md R106). Each is a sequence of
events and has no meaning beyond it. -/

namespace Sys2Proof.Machine

/-- `IDLE`, canonical word 0x000 (R58). -/
def idleEvent : Event := .command 0x000#10

/-- `INIT`, canonical word 0x200 (R58). -/
def initEvent : Event := .command 0x200#10

/-- `DEC c`, and `.cw (0x100 + w)` for an element outside 0 to 15 (R58, R59). -/
def decEvent (w : CodeWord) : Event := .command (cwOf false true w)

/-- `INITDEC c`, and `.cw (0x300 + w)` for an element outside 0 to 15 (R58). -/
def initdecEvent (w : CodeWord) : Event := .command (cwOf true true w)

/-- `CHUNK c0, ..., c(n-1)` (R59). -/
def chunk (codes : List CodeWord) : List Event := codes.map decEvent

/-- `FRAME c0, ..., c(n-1)` (R59). -/
def frame (codes : List CodeWord) : List Event := initEvent :: chunk codes

/-- The nibble splitter's contract for one byte: low nibble, then high nibble (R106). -/
def splitByte (b : BitVec 8) : List CodeWord := [b &&& 0x0F#8, (b >>> 4) &&& 0x0F#8]

/-- The codes of a packed byte sequence, two per byte (R106). -/
def splitBytes (bytes : List (BitVec 8)) : List CodeWord := bytes.flatMap splitByte

/-- `DECB b` (R59). -/
def decb (b : BitVec 8) : List Event := chunk (splitByte b)

/-- `FRAMEB b0, ..., b(n-1)` (R59). -/
def frameb (bytes : List (BitVec 8)) : List Event := initEvent :: bytes.flatMap decb

/-- An IDLE command, canonical or not: a command word with CW[9:8] = 0b00 (R54). -/
def isIdle : Event → Bool
  | .reset _ => false
  | .command cw => !cwInit cw && !cwCodeValid cw

end Sys2Proof.Machine
end

