-- ==== Sys2Proof/Safety.lean ====
section
/-! DEFINITION. The terms that claims are stated in: runs over event sequences
(spec 70_reset_and_hazards.md R141), the step as a pure function (41_decode_step.md R82), the whole
decode (42_frame_decode.md R100), the hardware widths (41_decode_step.md R80, decision D10) and the
invariants. -/

namespace Sys2Proof.Machine

open Sys2Proof.Config

/-! ### Runs -/

/-- n steps, stopping at the first that is no next state. -/
def runSteps : Nat → State → Host.Outcome State Fault Refusal
  | 0, s => .next s
  | n + 1, s =>
    match step s with
    | .next t => runSteps n t
    | .fault r => .fault r
    | .refused r => .refused r

/-- The run of the machine over the events `es`, from the registers and the sample record of `s`
(R141: "A run is a finite sequence of events"). -/
def play (es : List Event) (s : State) : Host.Outcome State Fault Refusal :=
  runSteps es.length { s with inputs := es }

/-- A state that some event sequence reaches from RESET in the engine with the table `T`
(42_frame_decode.md R108). -/
def Reachable (T : StepTable) (t : State) : Prop :=
  ∃ es : List Event, play es (State.resetWith T) = .next t

/-- Two states of one engine, so with one table, that have the same registers and the same sample
record: all that a later decode or the host's collection can depend on. -/
def SameEngine (s t : State) : Prop :=
  s.table = t.table ∧ s.pred = t.pred ∧ s.idx = t.idx ∧ s.err = t.err ∧ s.samples = t.samples

/-! ### The parameter STEP_TABLE -/

/-- What 20_memory.md R34 asks of a STEP_TABLE argument: 89 entries, entry 0 equal to 7, every entry in
[1, 32767], no decreasing pair. -/
def TableConstraints (l : List Nat) : Prop :=
  l.length = 89 ∧ l[0]? = some 7 ∧ (∀ e ∈ l, 1 ≤ e ∧ e ≤ 32767) ∧ l.Pairwise (· ≤ ·)

/-- The machine of the engine with the table `T`: the same step, from the reset state that carries `T`.
`Sys2Proof.core` is the one with the default table. -/
def coreWith (T : StepTable) : Host.Core :=
  { State := State, Fault := Fault, Refusal := Refusal, step := step, reset := State.resetWith T }

/-! ### Kinds of events -/

/-- A code is presented and it is not valid (30_encoding.md R55): the illegal command words. -/
def illegalWord (cw : CommandWord) : Prop := cwCodeValid cw = true ∧ 15 < (cwCode cw).toNat

/-- The event starts an independent decode: RESET, INIT or INITDEC, with a valid code or not. -/
def startsDecode : Event → Prop
  | .reset _ => True
  | .command cw => cwInit cw = true

/-- The event completes a decode step in `s` (41_decode_step.md R70, 40_control.md R67): a valid code
is presented, to an engine that is not frozen or with `init`. -/
def completes (s : State) : Event → Prop
  | .reset _ => False
  | .command cw =>
    cwCodeValid cw = true ∧ (cwCode cw).toNat ≤ 15 ∧ (cwInit cw = true ∨ s.err = false)

/-- The event raises InvalidCode in `s` (60_exceptions.md R111, R114). -/
def raises (s : State) : Event → Prop
  | .reset _ => False
  | .command cw => illegalWord cw ∧ (cwInit cw = true ∨ s.err = false)

/-- The state `s` with one more event at the ports, before all others. -/
def present (e : Event) (s : State) : State := { s with inputs := e :: s.inputs }

/-! ### The pure functions of the spec -/

/-- A bit as the number 0 or 1 (00_scope.md R6). -/
def bitValue (b : Bool) : Nat := if b then 1 else 0

/-- `Step(p, i, c)` of R82: the new predictor, the new index and the sample. -/
def pureStep (T : StepTable) (p : Int) (i : StepIndex) (c : Code) : Int × StepIndex × Int :=
  let step := stepRead T i
  let diff := step / 8 + bitValue (c.getLsbD 2) * step + bitValue (c.getLsbD 1) * (step / 2)
    + bitValue (c.getLsbD 0) * (step / 4)
  let p' := if c.getLsbD 3 then clamp (p - diff) (-32768) 32767 else clamp (p + diff) (-32768) 32767
  (p', clampIndex ((i.val : Int) + adjRead c), p')

/-- The result of a whole decode: the samples, or the error (R100, decision D29). -/
inductive DecodeResult where
  | ok (samples : List Int)
  | invalidCode
  deriving DecidableEq, Repr

/-- One more sample in front of the rest of a decode; an error stays an error. -/
def DecodeResult.cons (v : Int) : DecodeResult → DecodeResult
  | .ok vs => .ok (v :: vs)
  | .invalidCode => .invalidCode

/-- The fold of the pure step over the codes, stopping at the first invalid one (R100). -/
def pureDecodeFrom (T : StepTable) (p : Int) (i : StepIndex) : List CodeWord → DecodeResult
  | [] => .ok []
  | w :: ws =>
    if 15 < w.toNat then .invalidCode
    else
      let r := pureStep T p i (codeOf w)
      (pureDecodeFrom T r.1 r.2.1 ws).cons r.2.2

/-- The source's `decode(codes)` with a fresh state (R100). -/
def pureDecode (T : StepTable) (codes : List CodeWord) : DecodeResult := pureDecodeFrom T 0 0 codes

/-- `Decode` read off the engine: the flag after the run, and the samples that `after` has beyond
`before` (R100). -/
def decodeResult (before after : State) : DecodeResult :=
  if after.err then .invalidCode
  else .ok ((after.samples.drop before.samples.length).map BitVec.toInt)

/-- The multiply-first formula that the difference is not (41_decode_step.md R81). -/
def multipliedDifference (step m : Nat) : Nat := (2 * m + 1) * step / 8

/-! ### The datapath at the hardware widths of R80 -/

/-- `diff` in 16 bits unsigned. -/
def hwDifference (step : BitVec 15) (c : Code) : BitVec 16 :=
  let s := step.setWidth 16
  (s >>> 3) + (if c.getLsbD 2 then s else 0) + (if c.getLsbD 1 then s >>> 1 else 0)
    + (if c.getLsbD 0 then s >>> 2 else 0)

/-- `sum` in n bits two's complement; the hardware has n = 18. -/
def hwSum (n : Nat) (p : Sample) (diff : BitVec 16) (c : Code) : BitVec n :=
  if c.getLsbD 3 then p.signExtend n - diff.setWidth n else p.signExtend n + diff.setWidth n

/-- The predictor clamp of an n-bit sum. -/
def hwClampPredictor (n : Nat) (sum : BitVec n) : Sample :=
  if sum.slt (BitVec.ofInt n (-32768)) then 0x8000#16
  else if (BitVec.ofInt n 32767).slt sum then 0x7FFF#16
  else sum.setWidth 16

/-- `nidx` in 8 bits two's complement from an ADJ entry of 5 bits two's complement, and its clamp. -/
def hwIndex (i : BitVec 7) (c : Code) : BitVec 7 :=
  let nidx : BitVec 8 := i.setWidth 8 + (BitVec.ofInt 5 (adjRead c)).signExtend 8
  if nidx.slt 0#8 then 0#7 else if (88#8).slt nidx then 88#7 else nidx.setWidth 7

/-- The new PRED of a datapath whose sum has n bits. -/
def hwPredictor (n : Nat) (step : BitVec 15) (p : Sample) (c : Code) : Sample :=
  hwClampPredictor n (hwSum n p (hwDifference step c) c)

/-! ### Invariants -/

/-- What the outputs promise (10_state.md R19, 70_reset_and_hazards.md R139): while `sample_valid` is 1
the engine is not frozen and the word on `sample` is the last sample emitted; and a predictor that
is not 0 can still be read on `pred_o` as the last sample emitted, whatever came since. -/
def OutputsAgree (s : State) : Prop :=
  (sampleValidO s = true → errO s = false ∧ s.samples.getLast? = some (sampleO s)) ∧
  (predO s ≠ 0 → s.samples.getLast? = some (predO s))

/-! ### The shape of the rules R84 to R99 -/

/-- The sixteen decode operations, by code. -/
def decInstrs : List Instr :=
  [.dec0, .dec1, .dec2, .dec3, .dec4, .dec5, .dec6, .dec7]
  ++ [.dec8, .dec9, .dec10, .dec11, .dec12, .dec13, .dec14, .dec15]

/-- DECc (30_encoding.md R54). -/
def decInstr (c : Code) : Instr := decInstrs[c.toNat]'c.isLt

/-- The machine state right after a completed decode step: the two registers, the sample, and
nothing else changed (41_decode_step.md R78). -/
def completed (p : Int) (i : StepIndex) (s : State) : State :=
  { s with
    pred := BitVec.ofInt 16 p
    idx := i
    sampleValid := true
    samples := s.samples ++ [BitVec.ofInt 16 p] }

/-- What one of the rules R84 to R99 says: the operation `i` has the command word `cw`; on an engine
that is not frozen it completes, with `npred` the clamp of PRED - diff (`negative`) or PRED + diff
and with the clamp of IDX + delta as the new index, stored without loss, and changes nothing else;
on a frozen engine it does nothing. The min and max forms are the rule's corner cases: only one
bound of each clamp can act. -/
def DecRule (i : Instr) (cw : CommandWord) (diff : Nat → Nat) (negative : Bool) (delta : Int) : Prop :=
  decode cw = .ok i ∧ encode i = cw ∧
  (∀ s : State, s.err = false →
    let p := s.pred.toInt
    let d : Int := diff (stepRead s.table s.idx)
    let k : Int := s.idx.val
    ∃ (npred : Int) (idx : StepIndex),
      exec i s = .next (completed npred idx s) ∧
      (BitVec.ofInt 16 npred).toInt = npred ∧
      npred = clamp (if negative then p - d else p + d) (-32768) 32767 ∧
      npred = (if negative then max (p - d) (-32768) else min (p + d) 32767) ∧
      (idx.val : Int) = clamp (k + delta) 0 88 ∧
      (idx.val : Int) = (if delta < 0 then max (k + delta) 0 else min (k + delta) 88)) ∧
  (∀ s : State, s.err = true → exec i s = .next s.quiet)

/-- The table of 40_control.md R67: code, diff, new PRED, new IDX of INITDEC c. -/
def initdecRows : List (CodeWord × Nat × Int × StepIndex) :=
  [(0, 0, 0, 0), (1, 1, 1, 0), (2, 3, 3, 0), (3, 4, 4, 0)]
  ++ [(4, 7, 7, 2), (5, 8, 8, 4), (6, 10, 10, 6), (7, 11, 11, 8)]
  ++ [(8, 0, 0, 0), (9, 1, -1, 0), (10, 3, -3, 0), (11, 4, -4, 0)]
  ++ [(12, 7, -7, 2), (13, 8, -8, 4), (14, 10, -10, 6), (15, 11, -11, 8)]

/-- The table of 41_decode_step.md R81: the difference by magnitude m for step = 7, 8, 16, 337 and
32767. -/
def differenceRows : List (Code × List Nat) :=
  [(0, [0, 1, 2, 42, 4095]), (1, [1, 3, 6, 126, 12286])]
  ++ [(2, [3, 5, 10, 210, 20478]), (3, [4, 7, 14, 294, 28669])]
  ++ [(4, [7, 9, 18, 379, 36862]), (5, [8, 11, 22, 463, 45053])]
  ++ [(6, [10, 13, 26, 547, 53245]), (7, [11, 15, 30, 631, 61436])]

end Sys2Proof.Machine
end

