-- ==== Sys2Proof/Certificates/Slice0/Obligations.lean ====
section
/-! DEFINITION. The statements for the provers. "The event e presented to s" is `present e s`: the
state s with e as the next event at the ports, so that `step (present e s)` is s after e. The
parameter STEP_TABLE is the field `table` of the state (log 16), so a statement for every state is one
for the engine with every admissible table; only DefaultStepTableChecks is about the entries 1 to 88
of the default (log 6). -/

open Sys2Proof Sys2Proof.Machine Sys2Proof.Config

/-! ### Encoding -/

/-- Eleven words written out from 30_encoding.md R54 and the table rows: eight command words and two table
words decode to their operations or are refused as R54 has it; and the number 0x400, which does not
fit the 10 wires, is refused by decodeTableWord (this last is the model's DESIGN CHOICE, log 12). A
sanity statement. -/
def Obligations.TableWordsDecode : Prop :=
  decode 0b0000000000#10 = .ok .idle ∧ decode 0b0011111111#10 = .ok .idle ∧
  decode 0b1000000000#10 = .ok .init ∧ decode 0b0100000000#10 = .ok .dec0 ∧
  decode 0b0100001011#10 = .ok .dec11 ∧ decode 0b1100001111#10 = .ok (.initdec 15) ∧
  decode 0b0100010000#10 = .error (.invalidCode 16) ∧
  decode 0b1111111111#10 = .error (.initInvalidCode 255) ∧
  decodeTableWord 16 0x107 = some .dec7 ∧ decodeTableWord 16 0x110 = none ∧
  decodeTableWord 16 0x400 = none

/-- Decoding the canonical word of a well-formed instruction gives the instruction back, for every
instruction and every operand. -/
def Obligations.DecodeEncodeRoundTrip : Prop :=
  ∀ i : Instr, i.wf = true → decode (encode i) = .ok i

/-- What the decoder answers is well formed, and its canonical word is the word decoded, up to the low
byte that the engine ignores when no code is presented. -/
def Obligations.EncodeDecodeIsCanonical : Prop :=
  ∀ (cw : CommandWord) (i : Instr), decode cw = .ok i →
    i.wf = true ∧ encode i = canonicalWord cw

/-- R54, whole: every command word is one (init, code_valid, w); each row of the map in terms of those
fields and as match and mask; and what the two rows that encode no operation do. -/
def Obligations.OpcodeMapByFields : Prop :=
  (∀ cw : CommandWord, cwOf (cwInit cw) (cwCodeValid cw) (cwCode cw) = cw) ∧
  (∀ w : CodeWord, decode (cwOf false false w) = .ok .idle) ∧
  (∀ w : CodeWord, decode (cwOf true false w) = .ok .init) ∧
  (∀ w : CodeWord, w.toNat ≤ 15 → decode (cwOf false true w) = .ok (decInstr (codeOf w))) ∧
  (∀ w : CodeWord, w.toNat ≤ 15 → decode (cwOf true true w) = .ok (.initdec w)) ∧
  (∀ w : CodeWord, 15 < w.toNat → decode (cwOf false true w) = .error (.invalidCode w)) ∧
  (∀ w : CodeWord, 15 < w.toNat → decode (cwOf true true w) = .error (.initInvalidCode w)) ∧
  (∀ cw : CommandWord, decode cw = .ok .idle ↔ cw &&& 0x300#10 = 0x000#10) ∧
  (∀ cw : CommandWord, decode cw = .ok .init ↔ cw &&& 0x300#10 = 0x200#10) ∧
  (∀ (cw : CommandWord) (c : Code),
    decode cw = .ok (decInstr c) ↔ cw &&& 0x3FF#10 = 0x100#10 + c.setWidth 10) ∧
  (∀ cw : CommandWord,
    (∃ w : CodeWord, decode cw = .ok (.initdec w)) ↔ cw &&& 0x3F0#10 = 0x300#10) ∧
  (∀ (w : CodeWord) (s : State), 15 < w.toNat →
    (s.err = false →
      step (present (decEvent w) s) = .next { s with err := true, sampleValid := false }) ∧
    (s.err = true → step (present (decEvent w) s) = .next { s with sampleValid := false }) ∧
    step (present (initdecEvent w) s)
      = .next { s with pred := 0, idx := 0, err := true, sampleValid := false })

/-- R55: the words that decode to no operation are exactly those with code_valid = 1 and a code above
15, 240 for each value of init; and none of them is executed as a no-op or masked to a valid code:
the step it takes ends with ERR = 1 and emits nothing. -/
def Obligations.IllegalWordsAreRefusedAndReported : Prop :=
  (∀ cw : CommandWord, (∃ r, decode cw = .error r) ↔ illegalWord cw) ∧
  (∀ init : Bool, ((List.range 256).filter fun w =>
    decide (15 < (cwCode (cwOf init true (BitVec.ofNat 8 w))).toNat)).length = 240) ∧
  (∀ (cw : CommandWord) (s : State), illegalWord cw → ∃ t,
    step (present (.command cw) s) = .next t ∧ t.err = true ∧ t.samples = s.samples)

/-- R56: with code_valid = 0 the low byte of the command word has no effect and raises nothing. -/
def Obligations.LowByteIgnoredWithoutCode : Prop :=
  ∀ (init : Bool) (w w' : CodeWord) (s : State),
    step (present (.command (cwOf init false w)) s)
      = step (present (.command (cwOf init false w')) s) ∧
    ∃ t, step (present (.command (cwOf init false w)) s) = .next t ∧ (t.err = true → s.err = true)

/-! ### The step -/

/-- One step takes one event: a RESET event resets, a command word that decodes runs as exec of its
instruction, one that does not takes the exception, and with no event left the cycle carries IDLE
(this last is the model's reading, log 2). A word the host places with withFetchWord is the next
instruction run, on the very state it was placed in. -/
def Obligations.StepRunsTheDecodedInstruction : Prop :=
  (∀ (s : State) (cw : CommandWord) (rest : List Event) (i : Instr),
    s.inputs = .command cw :: rest → decode cw = .ok i →
      step s = exec i { s with inputs := rest }) ∧
  (∀ (s : State) (cw : CommandWord) (rest : List Event) (r : Illegal),
    s.inputs = .command cw :: rest → decode cw = .error r →
      step s = .next (takeIllegal r { s with inputs := rest })) ∧
  (∀ (s : State) (port : CommandWord) (rest : List Event), s.inputs = .reset port :: rest →
      step s = .next (resetEvent port { s with inputs := rest })) ∧
  (∀ s : State, s.inputs = [] → step s = exec .idle s) ∧
  (∀ (s : State) (nbits w : Nat) (i : Instr), decodeTableWord nbits w = some i →
      step (s.withFetchWord nbits w) = exec i s)

/-- Every step completes and takes exactly one event; every run over a finite event sequence ends; and
an engine with no event left holds its state, whether ERR is 0 or 1 (that a step with no event left
carries IDLE is the model's reading, log 2). -/
def Obligations.EveryRunCompletes : Prop :=
  (∀ s : State, ∃ t, step s = .next t ∧ t.inputs = s.inputs.tail) ∧
  (∀ (es : List Event) (s : State), ∃ t, play es s = .next t ∧ t.inputs = []) ∧
  (∀ (s : State) (n : Nat), s.inputs = [] →
    ∃ t, runSteps n s = .next t ∧ SameEngine s t)

/-- R46: the state a command sees is the state left by the command before it, so a run over two
sequences in a row is the second from where the first ended; the samples of the first run are a
prefix of those of the whole, so no later command affects an earlier sample, and the k-th sample
does not depend on what follows the code that produced it. -/
def Obligations.CommandsRunInOrder : Prop :=
  ∀ (es fs : List Event) (s : State), ∃ t u,
    play es s = .next t ∧ play fs t = .next u ∧ play (es ++ fs) s = .next u ∧
    t.samples <+: u.samples

/-- R18: what one command does is a function of (PRED, IDX, ERR) and the command alone, given the
engine's constant table: two states of an engine that agree on those three end alike and emit the
same samples, whatever else they hold. -/
def Obligations.StepDependsOnlyOnTheThreeElements : Prop :=
  ∀ (e : Event) (s s' : State),
    s.table = s'.table → s.pred = s'.pred → s.idx = s'.idx → s.err = s'.err →
    ∃ (t t' : State) (new : List Sample),
      step (present e s) = .next t ∧ step (present e s') = .next t' ∧
      t.pred = t'.pred ∧ t.idx = t'.idx ∧ t.err = t'.err ∧ t.sampleValid = t'.sampleValid ∧
      t.samples = s.samples ++ new ∧ t'.samples = s'.samples ++ new

/-- R16: the status outputs show PRED, IDX and ERR, and the host has no other way to write PRED or IDX
than RESET, INIT, INITDEC and the decode commands: a step that changes one of them took an event
that starts a decode, or a decode command with a valid code on an engine that is not frozen. -/
def Obligations.OutputsShowStateAndNoOtherWritePath : Prop :=
  (∀ s : State, (predO s).toInt = s.pred.toInt ∧ (idxO s).toNat = s.idx.val ∧ errO s = s.err) ∧
  (∀ s t : State, step s = .next t → (t.pred ≠ s.pred ∨ t.idx ≠ s.idx) →
    ∃ e, s.inputs.head? = some e ∧
      (startsDecode e ∨ ∃ w : CodeWord, w.toNat ≤ 15 ∧ e = decEvent w ∧ s.err = false))

/-! ### Reset and the control operations -/

/-- The reset values of every element and output, in the reset state and after a RESET event. -/
def Obligations.ResetValues : Prop :=
  (State.reset.pred.toInt = 0 ∧ State.reset.idx.val = 0 ∧ State.reset.err = false ∧
    predO State.reset = 0 ∧ idxO State.reset = 0 ∧ errO State.reset = false ∧
    sampleValidO State.reset = false ∧ sampleO State.reset = predO State.reset) ∧
  (∀ (port : CommandWord) (s : State), ∃ t, step (present (.reset port) s) = .next t ∧
    predO t = 0 ∧ idxO t = 0 ∧ errO t = false ∧ sampleValidO t = false ∧ sampleO t = 0)

/-- R130: RESET's effect is that of INIT, whatever stands on the command port: PRED, IDX, ERR become 0,
nothing is emitted; a DEC may follow it directly, as it follows INIT. -/
def Obligations.ResetIsInitAndIgnoresThePort : Prop :=
  ∀ (port : CommandWord) (s : State),
    step (present (.reset port) s)
      = .next { s with pred := 0, idx := 0, err := false, sampleValid := false } ∧
    step (present (.reset port) s) = step (present initEvent s) ∧
    ∀ w : CodeWord, play [.reset port, decEvent w] s = play [initEvent, decEvent w] s

/-- R65: IDLE, canonical word or not, changes no register and no sample; and any number of IDLE
commands anywhere in a sequence changes neither the state nor the samples. -/
def Obligations.IdleChangesNothing : Prop :=
  (encode .idle = 0x000#10 ∧ ∀ w : CodeWord, decode (cwOf false false w) = .ok .idle) ∧
  (∀ s : State, exec .idle s = .next { s with sampleValid := false }) ∧
  (∀ (es : List Event) (s : State), ∃ t u,
    play es s = .next t ∧ play (es.filter fun e => !isIdle e) s = .next u ∧ SameEngine t u)

/-- R66: INIT clears PRED, IDX and ERR from every state, frozen or not, emits nothing and touches
nothing else; INIT twice is INIT once; INIT on a fresh state changes nothing. -/
def Obligations.InitMakesTheFreshState : Prop :=
  (encode .init = 0x200#10 ∧ ∀ w : CodeWord, decode (cwOf true false w) = .ok .init) ∧
  (∀ s : State, exec .init s
    = .next { s with pred := 0, idx := 0, err := false, sampleValid := false }) ∧
  (∀ s : State, play [initEvent, initEvent] s = play [initEvent] s) ∧
  (∀ s : State, s.pred = 0 → s.idx = 0 → s.err = false →
    exec .init s = .next { s with sampleValid := false })

/-- R67: INITDEC w is INIT followed by the decode command word with the same code, as one command; for
the sixteen valid codes it completes with the values of the rule's table; for w above 15 it ends
with PRED = 0, IDX = 0, ERR = 1 and no sample. -/
def Obligations.InitdecIsInitThenDecode : Prop :=
  (∀ (w : CodeWord) (s : State), play [initdecEvent w] s = play [initEvent, decEvent w] s) ∧
  (∀ w : CodeWord, w.toNat ≤ 15 → decode (0x300#10 + w.setWidth 10) = .ok (.initdec w) ∧
    ∃ row ∈ initdecRows, row.1 = w) ∧
  (∀ row ∈ initdecRows, difference 7 (codeOf row.1) = row.2.1 ∧
    ∀ s : State, exec (.initdec row.1) s
      = .next (completed row.2.2.1 row.2.2.2 { s with err := false })) ∧
  (∀ (w : CodeWord) (s : State), 15 < w.toNat →
    exec (.initdec w) s
      = .next { s with pred := 0, idx := 0, err := true, sampleValid := false })

/-- A whole decode may start with INITDEC of its first code in place of INIT and DEC: the two are the
same, samples and end state. -/
def Obligations.FrameMayStartWithInitdec : Prop :=
  ∀ (w : CodeWord) (codes : List CodeWord) (s : State),
    play (initdecEvent w :: chunk codes) s = play (frame (w :: codes)) s

/-! ### The decode step -/

/-- R84 to R91: the operations with a clear sign bit. -/
def Obligations.AddingCodesDecode : Prop :=
  DecRule .dec0 0x100#10 (fun step => step / 8) false (-1) ∧
  DecRule .dec1 0x101#10 (fun step => step / 8 + step / 4) false (-1) ∧
  DecRule .dec2 0x102#10 (fun step => step / 8 + step / 2) false (-1) ∧
  DecRule .dec3 0x103#10 (fun step => step / 8 + step / 2 + step / 4) false (-1) ∧
  DecRule .dec4 0x104#10 (fun step => step / 8 + step) false 2 ∧
  DecRule .dec5 0x105#10 (fun step => step / 8 + step + step / 4) false 4 ∧
  DecRule .dec6 0x106#10 (fun step => step / 8 + step + step / 2) false 6 ∧
  DecRule .dec7 0x107#10 (fun step => step / 8 + step + step / 2 + step / 4) false 8

/-- R92 to R99: the operations with the sign bit set. -/
def Obligations.SubtractingCodesDecode : Prop :=
  DecRule .dec8 0x108#10 (fun step => step / 8) true (-1) ∧
  DecRule .dec9 0x109#10 (fun step => step / 8 + step / 4) true (-1) ∧
  DecRule .dec10 0x10A#10 (fun step => step / 8 + step / 2) true (-1) ∧
  DecRule .dec11 0x10B#10 (fun step => step / 8 + step / 2 + step / 4) true (-1) ∧
  DecRule .dec12 0x10C#10 (fun step => step / 8 + step) true 2 ∧
  DecRule .dec13 0x10D#10 (fun step => step / 8 + step + step / 4) true 4 ∧
  DecRule .dec14 0x10E#10 (fun step => step / 8 + step + step / 2) true 6 ∧
  DecRule .dec15 0x10F#10 (fun step => step / 8 + step + step / 2 + step / 4) true 8

/-- R70: a decode command word does nothing on a frozen engine, else raises InvalidCode on an invalid
code, else completes the decode step. -/
def Obligations.DecodeCommandAdmission : Prop :=
  ∀ (w : CodeWord) (s : State),
    (s.err = true → step (present (decEvent w) s) = .next { s with sampleValid := false }) ∧
    (s.err = false → 15 < w.toNat →
      step (present (decEvent w) s) = .next { s with err := true, sampleValid := false }) ∧
    (s.err = false → w.toNat ≤ 15 →
      step (present (decEvent w) s) = .next (decStep (codeOf w) s))

/-- R82 for every state, whatever admissible table it carries: the decode step on the registers is the
pure function Step, its result is again in the domain, the sample is the new predictor, and nothing
else changes. -/
def Obligations.DecStepIsThePureStep : Prop :=
  ∀ (c : Code) (s : State),
    let r := pureStep s.table s.pred.toInt s.idx c
    decStep c s = completed r.1 r.2.1 s ∧
    (decStep c s).pred.toInt = r.1 ∧ (decStep c s).samples.getLast? = some (BitVec.ofInt 16 r.2.2) ∧
    r.2.2 = r.1 ∧ -32768 ≤ r.1 ∧ r.1 ≤ 32767 ∧ r.2.1.val ≤ 88

/-- The difference: the sum of truncated terms, the table by magnitude, and how it lies below the
multiply-first formula by 0, 1 or 2, with equality at multiples of 8. -/
def Obligations.DifferenceIsSumOfTruncatedTerms : Prop :=
  (∀ (step : Nat) (c : Code),
    difference step c = step / 8 + bitValue (c.getLsbD 2) * step
      + bitValue (c.getLsbD 1) * (step / 2) + bitValue (c.getLsbD 0) * (step / 4)) ∧
  (∀ row ∈ differenceRows, [7, 8, 16, 337, 32767].map (fun step => difference step row.1) = row.2) ∧
  (∀ (step : Nat) (c : Code),
    difference step c ≤ multipliedDifference step (c.toNat % 8) ∧
    multipliedDifference step (c.toNat % 8) ≤ difference step c + 2 ∧
    (step % 8 = 0 → difference step c = multipliedDifference step (c.toNat % 8))) ∧
  (List.range 8).map (multipliedDifference 7) = [0, 2, 4, 6, 7, 9, 11, 13] ∧
  multipliedDifference 32767 7 = 61438

/-- The bounds of the intermediates for every admissible step table, the extremes reached, and exactly
when the difference is 0. -/
def Obligations.IntermediateBounds : Prop :=
  (∀ (T : StepTable) (i : StepIndex) (c : Code) (p : Sample),
    let step := stepRead T i
    let diff := difference step c
    step / 8 ≤ 4095 ∧ step / 2 ≤ 16383 ∧ step / 4 ≤ 8191 ∧ diff ≤ 61436 ∧
    -94204 ≤ updatedPredictor p.toInt diff c ∧ updatedPredictor p.toInt diff c ≤ 94203 ∧
    -1 ≤ updatedIndex i c ∧ updatedIndex i c ≤ 96 ∧
    (diff = 0 ↔ step < 8 ∧ c.toNat % 8 = 0)) ∧
  difference 32767 7 = 61436 ∧ updatedPredictor 32767 61436 7 = 94203 ∧
  updatedPredictor (-32768) 61436 15 = -94204 ∧ updatedIndex 88 7 = 96 ∧ updatedIndex 0 0 = -1

/-- The decode step on the hardware widths, 16-bit difference, 18-bit sum, 8-bit index sum, gives the
same registers as the exact arithmetic, for every state, admissible table and code; a 17-bit and a
16-bit sum do not (the counterexample is the table entry 32767 at full scale, which R34 admits). -/
def Obligations.FixedWidthDatapathIsExact : Prop :=
  (∀ (c : Code) (s : State),
    hwPredictor 18 (BitVec.ofNat 15 (stepRead s.table s.idx)) s.pred c = predO (decStep c s) ∧
    hwIndex (idxO s) c = idxO (decStep c s)) ∧
  (∀ n ∈ [16, 17], ∃ (step : BitVec 15) (p : Sample) (c : Code), 1 ≤ step.toNat ∧
    (hwPredictor n step p c).toInt
      ≠ clampPredictor (updatedPredictor p.toInt (difference step.toNat c) c))

/-! ### The tables -/

/-- R36 and R37: the sixteen entries, the period 8, the closed form, the range. -/
def Obligations.IndexAdjustTable : Prop :=
  (List.range 16).map (fun k => adjRead (BitVec.ofNat 4 k))
    = [-1, -1, -1, -1, 2, 4, 6, 8, -1, -1, -1, -1, 2, 4, 6, 8] ∧
  ∀ c : Code, adjRead (c ^^^ 8) = adjRead c ∧
    (c.getLsbD 2 = false → adjRead c = -1) ∧
    (c.getLsbD 2 = true → adjRead c = 2 * ((c.toNat % 4 : Nat) + 1)) ∧
    -1 ≤ adjRead c ∧ adjRead c ≤ 8 ∧ (BitVec.ofInt 5 (adjRead c)).toInt = adjRead c

/-- R34: a STEP_TABLE argument with 89 entries, entry 0 equal to 7, every entry in [1, 32767] and no
decreasing pair is accepted, as the table with exactly those entries; every other list is refused:
it gives no table at all. And every table meets the constraints, with entries that 15 bits unsigned
hold. -/
def Obligations.StepTableArgumentCheck : Prop :=
  (∀ l : List Nat, TableConstraints l → ∃ T, stepTableOf? l = some T ∧ T.entries = l) ∧
  (∀ l : List Nat, ¬ TableConstraints l → stepTableOf? l = none) ∧
  (∀ T : StepTable, TableConstraints T.entries ∧
    ∀ i : StepIndex, (BitVec.ofNat 15 (stepRead T i)).toNat = stepRead T i)

/-- The engine takes the table as a parameter: from any list that meets the constraints there is a reset
state that carries those entries, with PRED, IDX and ERR as after RESET; and no step and no run, of
whatever events, changes a table entry, so that the table passed stays the table used. -/
def Obligations.TableIsAParameterNoStepWrites : Prop :=
  (∀ l : List Nat, TableConstraints l → ∃ T, stepTableOf? l = some T ∧
    (State.resetWith T).table.entries = l ∧ (State.resetWith T).pred = 0 ∧
    (State.resetWith T).idx = 0 ∧ (State.resetWith T).err = false) ∧
  (∀ s t : State, step s = .next t → t.table = s.table) ∧
  (∀ (es : List Event) (T : StepTable), ∃ t,
    play es (State.resetWith T) = .next t ∧ t.table = T)

/-- R31 and R32, of every admissible table through StepRead: positive, non-decreasing in the index,
and 7 at index 0. -/
def Obligations.StepReadsArePositiveAndMonotone : Prop :=
  ∀ T : StepTable, T.entries.length = 89 ∧ (stepRead T 0 = 7) ∧ (∀ i, 0 < stepRead T i) ∧
    ∀ i j : StepIndex, i ≤ j → stepRead T i ≤ stepRead T j

/-- The transcription checks that 20_memory.md gives of the default table (log 6): 89 values, strictly
increasing, last 32767, sum 360393. -/
def Obligations.DefaultStepTableChecks : Prop :=
  stepTable.entries.length = 89 ∧ stepTable.entries.sum = 360393 ∧
  stepRead stepTable 88 = 32767 ∧ stepRead stepTable 40 = 337 ∧
  ∀ i j : StepIndex, i < j → stepRead stepTable i < stepRead stepTable j

/-! ### The flag, the fault and the frozen condition -/

/-- R15: ERR rises exactly at an invalid code and falls exactly at RESET, INIT or INITDEC (the last
with a valid code: with an invalid one it is cleared and set again). -/
def Obligations.ErrChangesExactlyAsStated : Prop :=
  ∀ (e : Event) (s : State), ∃ t, step (present e s) = .next t ∧ errO t = t.err ∧
    (s.err = false → (t.err = true ↔ raises s e)) ∧
    (s.err = true → (t.err = false ↔ startsDecode e ∧ ¬ raises s e))

/-- R113: taking InvalidCode sets ERR, shown on err with cause 1, and changes nothing else: PRED, IDX and
the samples stay, no sample is valid, and the word is not recorded (the state after is the same for
every invalid word). -/
def Obligations.InvalidCodeEntry : Prop :=
  ∀ (w : CodeWord) (s : State), 15 < w.toNat → s.err = false →
    step (present (decEvent w) s) = .next { s with err := true, sampleValid := false } ∧
    causeCode s = 0 ∧ causeCode { s with err := true, sampleValid := false } = 1 ∧
    errO { s with err := true, sampleValid := false } = true

/-- R114: while frozen, decode commands with any code and IDLE commands, in any number, change neither
registers nor flag nor samples. -/
def Obligations.FrozenIgnoresEveryDecodeCommand : Prop :=
  ∀ (es : List Event) (s : State), s.err = true → (∀ e ∈ es, ¬ startsDecode e) →
    ∃ t, play es s = .next t ∧ SameEngine s t ∧ (es ≠ [] → t.sampleValid = false)

/-- R115: the frozen condition ends by INIT, INITDEC or RESET and by nothing else; INITDEC with an
invalid code ends in (0, 0, ERR = 1); no fault is raised while frozen without such a start. -/
def Obligations.OnlyARestartEndsTheFrozenCondition : Prop :=
  ∀ s : State, s.err = true →
    (∀ w : CodeWord, ∃ t, step (present (.command (cwOf true false w)) s) = .next t ∧
      t.err = false ∧ t.pred = 0 ∧ t.idx = 0) ∧
    (∀ port : CommandWord, ∃ t, step (present (.reset port) s) = .next t ∧
      t.err = false ∧ t.pred = 0 ∧ t.idx = 0) ∧
    (∀ w : CodeWord, w.toNat ≤ 15 → step (present (initdecEvent w) s)
      = .next (decStep (codeOf w)
          { s with pred := 0, idx := 0, err := false, sampleValid := false })) ∧
    (∀ w : CodeWord, 15 < w.toNat → step (present (initdecEvent w) s)
      = .next { s with pred := 0, idx := 0, err := true, sampleValid := false }) ∧
    (∀ e : Event, ¬ startsDecode e → ¬ raises s e ∧
      ∃ t, step (present e s) = .next t ∧ t.err = true ∧ t.pred = s.pred ∧ t.idx = s.idx)

/-! ### Samples and invariants -/

/-- R19: an event that completes a decode step emits exactly one sample, the new PRED, with
sample_valid = 1; every other event emits none, with sample_valid = 0. -/
def Obligations.OneSamplePerCompletedDecode : Prop :=
  ∀ (e : Event) (s : State), ∃ t, step (present e s) = .next t ∧ sampleO t = t.pred ∧
    (completes s e → t.samples = s.samples ++ [t.pred] ∧ sampleValidO t = true) ∧
    (¬ completes s e → t.samples = s.samples ∧ sampleValidO t = false)

/-- The output invariant holds in the reset state. -/
def Obligations.ResetOutputsAgree : Prop := OutputsAgree State.reset

/-- Every step keeps the output invariant: a valid sample pin shows the last sample emitted, and a
predictor that is not 0 is the last sample emitted. From every state that meets it. -/
def Obligations.StepKeepsOutputsAgree : Prop :=
  ∀ s t : State, OutputsAgree s → step s = .next t → OutputsAgree t

/-- R108, for the engine with every admissible table, so for the default one too: every reachable state
is in range; every index 0 to 88 is reached, and so is each of the two predictor bounds. -/
def Obligations.ReachableStatesInRangeAndEndsReached : Prop :=
  ∀ T : StepTable,
    (∀ t, Reachable T t → -32768 ≤ t.pred.toInt ∧ t.pred.toInt ≤ 32767 ∧ t.idx.val ≤ 88) ∧
    (∀ k : StepIndex, ∃ t, Reachable T t ∧ t.idx = k) ∧
    (∃ t, Reachable T t ∧ t.pred.toInt = 32767) ∧ (∃ t, Reachable T t ∧ t.pred.toInt = -32768)

/-! ### The whole decode -/

/-- R100: the command sequence of decode(codes), run from any state, gives the fold of the pure step
function over the codes with the engine's table, stopping with the error at the first invalid one. -/
def Obligations.FrameIsTheFoldOfThePureStep : Prop :=
  ∀ (codes : List CodeWord) (s : State), ∃ t,
    play (frame codes) s = .next t ∧ decodeResult s t = pureDecode s.table codes

/-- R101 and R102: with valid codes only there are as many samples as codes, the k-th sample being the
last one of the decode of the first k codes; the empty decode gives the empty sequence and is no
error. -/
def Obligations.SamplesMatchCodesOneToOne : Prop :=
  (∀ (codes : List CodeWord) (s : State), (∀ w ∈ codes, w.toNat ≤ 15) →
    ∃ t new, play (frame codes) s = .next t ∧ t.err = false ∧ t.samples = s.samples ++ new ∧
      new.length = codes.length ∧
      ∀ k ≤ codes.length, ∃ u, play (frame (codes.take k)) s = .next u ∧
        u.samples = s.samples ++ new.take k) ∧
  (∀ s : State, ∃ t, play (frame []) s = .next t ∧ t.err = false ∧ t.samples = s.samples ∧
    decodeResult s t = .ok [])

/-- Chunks: a decode cut in two, with any number of IDLE commands anywhere, ends in the same registers
with the same samples as the decode in one piece; a restart between the chunks makes the second
one a fresh decode: it ends in the registers and adds the samples of the decode of its codes from
any state s' of the same engine, whatever was emitted before. -/
def Obligations.ChunkingIsInvisible : Prop :=
  (∀ (a b : List CodeWord) (es : List Event) (s : State),
    (es.filter fun e => !isIdle e) = frame a ++ chunk b →
    ∃ t u, play es s = .next t ∧ play (frame (a ++ b)) s = .next u ∧ SameEngine t u) ∧
  (∀ (a b : List CodeWord) (s s' : State), s.table = s'.table →
    ∃ (t t' u : State) (new : List Sample),
    play (frame a) s = .next t ∧ play (frame a ++ frame b) s = .next t' ∧
    play (frame b) s' = .next u ∧
    t'.pred = u.pred ∧ t'.idx = u.idx ∧ t'.err = u.err ∧
    t'.samples = t.samples ++ new ∧ u.samples = s'.samples ++ new)

/-- R104: a decode whose first invalid code stands at position j emits exactly the j samples of the
valid codes before it and ends in the error, whatever follows. -/
def Obligations.InvalidCodeAbortsTheDecode : Prop :=
  ∀ (pre post : List CodeWord) (bad : CodeWord) (s : State),
    (∀ w ∈ pre, w.toNat ≤ 15) → 15 < bad.toNat →
    ∃ t u, play (frame (pre ++ bad :: post)) s = .next t ∧ play (frame pre) s = .next u ∧
      t.err = true ∧ t.samples = u.samples ∧ t.samples.length = s.samples.length + pre.length ∧
      t.pred = u.pred ∧ t.idx = u.idx ∧ decodeResult s t = .invalidCode

/-- R105: what is emitted between an INIT and the next start depends only on the commands between
them, not on anything before: from any two states of an engine (one table) the same commands after
INIT emit the same new samples and end in the same registers. -/
def Obligations.DecodeIsPure : Prop :=
  ∀ (es : List Event) (s s' : State), s.table = s'.table → (∀ e ∈ es, ¬ startsDecode e) →
    ∃ (t t' : State) (new : List Sample),
      play (initEvent :: es) s = .next t ∧ play (initEvent :: es) s' = .next t' ∧
      t.pred = t'.pred ∧ t.idx = t'.idx ∧ t.err = t'.err ∧
      t.samples = s.samples ++ new ∧ t'.samples = s'.samples ++ new

/-- R106: the splitter's contract, low nibble then high nibble, twice as many codes as bytes, always
valid; so a byte stream never raises InvalidCode and gives two samples per byte. -/
def Obligations.ByteStreamNeverRaisesInvalidCode : Prop :=
  (∀ b : BitVec 8, decb b
    = [decEvent (BitVec.ofNat 8 (b.toNat % 16)), decEvent (BitVec.ofNat 8 (b.toNat / 16))]) ∧
  (∀ bytes : List (BitVec 8), (splitBytes bytes).length = 2 * bytes.length ∧
    (∀ w ∈ splitBytes bytes, w.toNat ≤ 15) ∧ frameb bytes = frame (splitBytes bytes)) ∧
  (∀ (bytes : List (BitVec 8)) (s : State), ∃ t, play (frameb bytes) s = .next t ∧
    t.err = false ∧ t.samples.length = s.samples.length + 2 * bytes.length)
end

