-- ==== Sys2Proof/Laws/Decode.lean ====
section
/-! SUPPORT. Small facts about the fields of a command word and the opcode map. -/

namespace Sys2Proof

/-- The three ports can be read back from the command word (30_encoding.md R50, R60). -/
@[simp] theorem cwInit_cwOf : ∀ (i v : Bool) (w : CodeWord), cwInit (cwOf i v w) = i := by
  decide

@[simp] theorem cwCodeValid_cwOf : ∀ (i v : Bool) (w : CodeWord), cwCodeValid (cwOf i v w) = v := by
  decide

@[simp] theorem cwCode_cwOf : ∀ (i v : Bool) (w : CodeWord), cwCode (cwOf i v w) = w := by
  decide

/-- A command word is made of its three fields. -/
theorem cwOf_fields : ∀ cw : CommandWord, cwOf (cwInit cw) (cwCodeValid cw) (cwCode cw) = cw := by
  decide

/-- No command word matches two rows of the opcode map (30_encoding.md R54: "exactly one row"). -/
theorem opcodeRows_disjoint :
    opcodeRows.Pairwise fun a b => (a.pattern ^^^ b.pattern) &&& (a.mask &&& b.mask) ≠ 0 := by
  simp only [opcodeRows, List.cons_append, List.nil_append, List.pairwise_cons, List.mem_cons,
    forall_eq_or_imp]
  simp

end Sys2Proof
end

