-- ==== Sys2Proof/Laws/State.lean ====
section
/-! SUPPORT. One lemma per field per named update of State, so that no later proof unfolds a record
update, and one per field of the reset state. -/

namespace Sys2Proof.Machine.State

open Sys2Proof.Config

variable (s : State)

@[simp] theorem setRegs_pred (p : Sample) (i : StepIndex) : (s.setRegs p i).pred = p := rfl
@[simp] theorem setRegs_idx (p : Sample) (i : StepIndex) : (s.setRegs p i).idx = i := rfl
@[simp] theorem setRegs_err (p : Sample) (i : StepIndex) : (s.setRegs p i).err = s.err := rfl
@[simp] theorem setRegs_sampleValid (p : Sample) (i : StepIndex) : (s.setRegs p i).sampleValid = s.sampleValid := rfl
@[simp] theorem setRegs_samples (p : Sample) (i : StepIndex) : (s.setRegs p i).samples = s.samples := rfl
@[simp] theorem setRegs_inputs (p : Sample) (i : StepIndex) : (s.setRegs p i).inputs = s.inputs := rfl
@[simp] theorem setRegs_table (p : Sample) (i : StepIndex) : (s.setRegs p i).table = s.table := rfl

@[simp] theorem setErr_pred : s.setErr.pred = s.pred := rfl
@[simp] theorem setErr_idx : s.setErr.idx = s.idx := rfl
@[simp] theorem setErr_err : s.setErr.err = true := rfl
@[simp] theorem setErr_sampleValid : s.setErr.sampleValid = s.sampleValid := rfl
@[simp] theorem setErr_samples : s.setErr.samples = s.samples := rfl
@[simp] theorem setErr_inputs : s.setErr.inputs = s.inputs := rfl
@[simp] theorem setErr_table : s.setErr.table = s.table := rfl

@[simp] theorem clearErr_pred : s.clearErr.pred = s.pred := rfl
@[simp] theorem clearErr_idx : s.clearErr.idx = s.idx := rfl
@[simp] theorem clearErr_err : s.clearErr.err = false := rfl
@[simp] theorem clearErr_sampleValid : s.clearErr.sampleValid = s.sampleValid := rfl
@[simp] theorem clearErr_samples : s.clearErr.samples = s.samples := rfl
@[simp] theorem clearErr_inputs : s.clearErr.inputs = s.inputs := rfl
@[simp] theorem clearErr_table : s.clearErr.table = s.table := rfl

@[simp] theorem emit_pred (v : Sample) : (s.emit v).pred = s.pred := rfl
@[simp] theorem emit_idx (v : Sample) : (s.emit v).idx = s.idx := rfl
@[simp] theorem emit_err (v : Sample) : (s.emit v).err = s.err := rfl
@[simp] theorem emit_sampleValid (v : Sample) : (s.emit v).sampleValid = true := rfl
@[simp] theorem emit_samples (v : Sample) : (s.emit v).samples = s.samples ++ [v] := rfl
@[simp] theorem emit_inputs (v : Sample) : (s.emit v).inputs = s.inputs := rfl
@[simp] theorem emit_table (v : Sample) : (s.emit v).table = s.table := rfl

@[simp] theorem quiet_pred : s.quiet.pred = s.pred := rfl
@[simp] theorem quiet_idx : s.quiet.idx = s.idx := rfl
@[simp] theorem quiet_err : s.quiet.err = s.err := rfl
@[simp] theorem quiet_sampleValid : s.quiet.sampleValid = false := rfl
@[simp] theorem quiet_samples : s.quiet.samples = s.samples := rfl
@[simp] theorem quiet_inputs : s.quiet.inputs = s.inputs := rfl
@[simp] theorem quiet_table : s.quiet.table = s.table := rfl

@[simp] theorem dropInput_pred : s.dropInput.pred = s.pred := rfl
@[simp] theorem dropInput_idx : s.dropInput.idx = s.idx := rfl
@[simp] theorem dropInput_err : s.dropInput.err = s.err := rfl
@[simp] theorem dropInput_sampleValid : s.dropInput.sampleValid = s.sampleValid := rfl
@[simp] theorem dropInput_samples : s.dropInput.samples = s.samples := rfl
@[simp] theorem dropInput_inputs : s.dropInput.inputs = s.inputs.tail := rfl
@[simp] theorem dropInput_table : s.dropInput.table = s.table := rfl

@[simp] theorem pushCommand_pred (cw : CommandWord) : (s.pushCommand cw).pred = s.pred := rfl
@[simp] theorem pushCommand_idx (cw : CommandWord) : (s.pushCommand cw).idx = s.idx := rfl
@[simp] theorem pushCommand_err (cw : CommandWord) : (s.pushCommand cw).err = s.err := rfl
@[simp] theorem pushCommand_sampleValid (cw : CommandWord) : (s.pushCommand cw).sampleValid = s.sampleValid := rfl
@[simp] theorem pushCommand_samples (cw : CommandWord) : (s.pushCommand cw).samples = s.samples := rfl
@[simp] theorem pushCommand_inputs (cw : CommandWord) : (s.pushCommand cw).inputs = .command cw :: s.inputs := rfl
@[simp] theorem pushCommand_table (cw : CommandWord) : (s.pushCommand cw).table = s.table := rfl

@[simp] theorem reset_pred : reset.pred = 0 := rfl
@[simp] theorem reset_idx : reset.idx = 0 := rfl
@[simp] theorem reset_err : reset.err = false := rfl
@[simp] theorem reset_sampleValid : reset.sampleValid = false := rfl
@[simp] theorem reset_samples : reset.samples = [] := rfl
@[simp] theorem reset_inputs : reset.inputs = [] := rfl
@[simp] theorem reset_table : reset.table = stepTable := rfl

@[simp] theorem resetWith_pred (T : StepTable) : (resetWith T).pred = 0 := rfl
@[simp] theorem resetWith_idx (T : StepTable) : (resetWith T).idx = 0 := rfl
@[simp] theorem resetWith_err (T : StepTable) : (resetWith T).err = false := rfl
@[simp] theorem resetWith_sampleValid (T : StepTable) : (resetWith T).sampleValid = false := rfl
@[simp] theorem resetWith_samples (T : StepTable) : (resetWith T).samples = [] := rfl
@[simp] theorem resetWith_inputs (T : StepTable) : (resetWith T).inputs = [] := rfl
@[simp] theorem resetWith_table (T : StepTable) : (resetWith T).table = T := rfl

/-- Two states with equal fields are equal. -/
@[ext] theorem ext' {s t : State} (hp : s.pred = t.pred) (hi : s.idx = t.idx) (he : s.err = t.err)
    (hv : s.sampleValid = t.sampleValid) (hs : s.samples = t.samples) (hn : s.inputs = t.inputs)
    (hT : s.table = t.table) : s = t := by
  cases s; cases t; simp_all

end Sys2Proof.Machine.State
end

