-- ==== Sys2Proof/Laws/Tables.lean ====
section
/-! SUPPORT. What an admissible step table promises of one read, and the reads of the index
adjustment table. -/

namespace Sys2Proof.Machine

open Sys2Proof.Config

theorem stepRead_mem (T : StepTable) (i : StepIndex) : stepRead T i ∈ T.entries :=
  List.getElem_mem _

/-- Every step read is in [1, 32767] (20_memory.md R34). -/
theorem stepRead_bounds (T : StepTable) (i : StepIndex) :
    1 ≤ stepRead T i ∧ stepRead T i ≤ 32767 := by
  have h := T.ok
  simp only [admissible, Bool.and_eq_true, List.all_eq_true, decide_eq_true_eq] at h
  exact h.1.2 _ (stepRead_mem T i)

/-- Every index adjustment is in [-1, 8] (20_memory.md R37). -/
theorem adjRead_bounds : ∀ c : Code, -1 ≤ adjRead c ∧ adjRead c ≤ 8 := by
  decide

end Sys2Proof.Machine
end

