-- ==== Sys2Proof/Laws/Ops.lean ====
section
/-! SUPPORT. One lemma for each shared operation that says everything it does; callers cite it and do
not unfold the operation. -/

namespace Sys2Proof.Machine

open Sys2Proof.Config

/-! ### Arithmetic -/

theorem clamp_of_mem {v lo hi : Int} (h₁ : lo ≤ v) (h₂ : v ≤ hi) : clamp v lo hi = v := by
  unfold clamp; split
  · omega
  · split <;> omega

theorem clampPredictor_bounds (v : Int) :
    -32768 ≤ clampPredictor v ∧ clampPredictor v ≤ 32767 :=
  clamp_bounds v _ _ (by decide)

/-- The predictor clamp with its bounds written out. -/
theorem clampPredictor_eq (v : Int) :
    clampPredictor v = if v < -32768 then -32768 else if 32767 < v then 32767 else v := rfl

/-- A clamped predictor is a 16-bit two's complement value, in the form simp gives to reading back a
stored one. -/
@[simp] theorem clampPredictor_bmod (v : Int) :
    (clampPredictor v).bmod 65536 = clampPredictor v := by
  have h := clampPredictor_bounds v
  exact Int.bmod_eq_of_le (by omega) (by omega)

/-- Storing a clamped predictor in 16 bits loses nothing (41_decode_step.md R77). -/
theorem toInt_ofInt_clampPredictor (v : Int) :
    (BitVec.ofInt 16 (clampPredictor v)).toInt = clampPredictor v := by
  simp

theorem clampIndex_val (v : Int) : ((clampIndex v).val : Int) = clamp v 0 88 := by
  have h := clamp_bounds v idxMin idxMax (by decide)
  simp only [clampIndex, idxMin, idxMax] at *
  omega

/-! ### The commands' common parts -/

/-- The decode step, in one record (41_decode_step.md R78). -/
theorem decStep_eq (c : Code) (s : State) :
    decStep c s =
      { s with
        pred := BitVec.ofInt 16 (clampPredictor
          (updatedPredictor s.pred.toInt (difference (stepRead s.table s.idx) c) c))
        idx := clampIndex (updatedIndex s.idx c)
        sampleValid := true
        samples := s.samples ++ [BitVec.ofInt 16 (clampPredictor
          (updatedPredictor s.pred.toInt (difference (stepRead s.table s.idx) c) c))] } := rfl

theorem freshStart_eq (s : State) :
    freshStart s = { s with pred := 0, idx := 0, err := false, sampleValid := false } := rfl

theorem raiseInvalidCode_eq (w : CodeWord) (s : State) :
    raiseInvalidCode w s = { s with err := true, sampleValid := false } := rfl

@[simp] theorem resetEvent_eq (port : CommandWord) (s : State) :
    resetEvent port s = freshStart s := rfl

/-- A frozen engine ignores a decode command. -/
theorem decodeCommand_frozen (w : CodeWord) {s : State} (h : s.err = true) :
    decodeCommand w s = s.quiet := by
  simp [decodeCommand, frozen, h]

/-- An engine that is not frozen raises InvalidCode on an invalid code word. -/
theorem decodeCommand_invalid {w : CodeWord} {s : State} (h : s.err = false)
    (hw : 15 < w.toNat) : decodeCommand w s = raiseInvalidCode w s := by
  simp [decodeCommand, frozen, h, validCode, Nat.not_le.mpr hw]

/-- An engine that is not frozen completes the step on a valid code. -/
theorem decodeCommand_valid {w : CodeWord} {s : State} (h : s.err = false)
    (hw : w.toNat ≤ 15) : decodeCommand w s = decStep (codeOf w) s := by
  simp [decodeCommand, frozen, h, validCode, hw]

/-- No shared operation reads or writes the input sequence. -/
@[simp] theorem decStep_inputs (c : Code) (s : State) :
    (decStep c s).inputs = s.inputs := rfl

@[simp] theorem freshStart_inputs (s : State) : (freshStart s).inputs = s.inputs := rfl

@[simp] theorem raiseInvalidCode_inputs (w : CodeWord) (s : State) :
    (raiseInvalidCode w s).inputs = s.inputs := rfl

@[simp] theorem decodeCommand_inputs (w : CodeWord) (s : State) :
    (decodeCommand w s).inputs = s.inputs := by
  unfold decodeCommand; split
  · rfl
  · split <;> rfl

@[simp] theorem initDecode_inputs (w : CodeWord) (s : State) :
    (initDecode w s).inputs = s.inputs := by
  simp [initDecode]

/-- No shared operation writes the step table (20_memory.md R42). -/
@[simp] theorem decStep_table (c : Code) (s : State) : (decStep c s).table = s.table := rfl

@[simp] theorem freshStart_table (s : State) : (freshStart s).table = s.table := rfl

@[simp] theorem raiseInvalidCode_table (w : CodeWord) (s : State) :
    (raiseInvalidCode w s).table = s.table := rfl

@[simp] theorem decodeCommand_table (w : CodeWord) (s : State) :
    (decodeCommand w s).table = s.table := by
  unfold decodeCommand; split
  · rfl
  · split <;> rfl

@[simp] theorem initDecode_table (w : CodeWord) (s : State) :
    (initDecode w s).table = s.table := by
  simp [initDecode]

/-- INITDEC in one case split: the step on the fresh state, or the exception on it (40_control.md
R67). -/
theorem initDecode_cases (w : CodeWord) (s : State) :
    (w.toNat ≤ 15 ∧ initDecode w s = decStep (codeOf w) (freshStart s)) ∨
    (15 < w.toNat ∧ initDecode w s = raiseInvalidCode w (freshStart s)) := by
  rcases Nat.lt_or_ge 15 w.toNat with h | h
  · exact .inr ⟨h, decodeCommand_invalid rfl h⟩
  · exact .inl ⟨h, decodeCommand_valid rfl h⟩

end Sys2Proof.Machine
end

