-- ==== Sys2Proof/Laws/PerInstr.lean ====
section
/-! SUPPORT. Facts proved instruction by instruction, as facts about its syntax and encoding. -/

namespace Sys2Proof.Laws.Encoding

/-- A well-formed instruction's word stands on a row of the opcode map that builds the instruction
(spec 30_encoding.md R54, R58). -/
def Statement (i : Instr) : Prop :=
  i.wf = true →
    ∃ r ∈ opcodeRows, encode i &&& r.mask = r.pattern ∧ r.build (encode i) = i

theorem idle : Statement .idle :=
  fun _ => ⟨opcodeRows[0], List.getElem_mem _, rfl, rfl⟩

theorem init : Statement .init :=
  fun _ => ⟨opcodeRows[1], List.getElem_mem _, rfl, rfl⟩

theorem dec0 : Statement .dec0 :=
  fun _ => ⟨opcodeRows[2], List.getElem_mem _, rfl, rfl⟩

theorem dec1 : Statement .dec1 :=
  fun _ => ⟨opcodeRows[3], List.getElem_mem _, rfl, rfl⟩

theorem dec2 : Statement .dec2 :=
  fun _ => ⟨opcodeRows[4], List.getElem_mem _, rfl, rfl⟩

theorem dec3 : Statement .dec3 :=
  fun _ => ⟨opcodeRows[5], List.getElem_mem _, rfl, rfl⟩

theorem dec4 : Statement .dec4 :=
  fun _ => ⟨opcodeRows[6], List.getElem_mem _, rfl, rfl⟩

theorem dec5 : Statement .dec5 :=
  fun _ => ⟨opcodeRows[7], List.getElem_mem _, rfl, rfl⟩

theorem dec6 : Statement .dec6 :=
  fun _ => ⟨opcodeRows[8], List.getElem_mem _, rfl, rfl⟩

theorem dec7 : Statement .dec7 :=
  fun _ => ⟨opcodeRows[9], List.getElem_mem _, rfl, rfl⟩

theorem dec8 : Statement .dec8 :=
  fun _ => ⟨opcodeRows[10], List.getElem_mem _, rfl, rfl⟩

theorem dec9 : Statement .dec9 :=
  fun _ => ⟨opcodeRows[11], List.getElem_mem _, rfl, rfl⟩

theorem dec10 : Statement .dec10 :=
  fun _ => ⟨opcodeRows[12], List.getElem_mem _, rfl, rfl⟩

theorem dec11 : Statement .dec11 :=
  fun _ => ⟨opcodeRows[13], List.getElem_mem _, rfl, rfl⟩

theorem dec12 : Statement .dec12 :=
  fun _ => ⟨opcodeRows[14], List.getElem_mem _, rfl, rfl⟩

theorem dec13 : Statement .dec13 :=
  fun _ => ⟨opcodeRows[15], List.getElem_mem _, rfl, rfl⟩

theorem dec14 : Statement .dec14 :=
  fun _ => ⟨opcodeRows[16], List.getElem_mem _, rfl, rfl⟩

theorem dec15 : Statement .dec15 :=
  fun _ => ⟨opcodeRows[17], List.getElem_mem _, rfl, rfl⟩

theorem cwOf_true_true_masked : ∀ w : CodeWord, w.toNat ≤ 15 →
    cwOf true true w &&& 0x3F0#10 = 0x300#10 := by
  decide

theorem initdec (w : CodeWord) : Statement (.initdec w) := fun h =>
  ⟨opcodeRows[18], List.getElem_mem _, cwOf_true_true_masked w (of_decide_eq_true h),
    congrArg Instr.initdec (cwCode_cwOf true true w)⟩

end Sys2Proof.Laws.Encoding
end

