-- ==== Sys2Proof/Laws/Step.lean ====
section
/-! SUPPORT. What one step can do, said once: the effect of one event as a total function, the step and
the run in terms of it, and the case split over an event's kinds that later proofs start from. -/

namespace Sys2Proof.Machine

open Sys2Proof.Config

/-! ### The decoder by fields -/

theorem decode_idle : ∀ w : CodeWord, decode (cwOf false false w) = .ok .idle := by decide

theorem decode_init : ∀ w : CodeWord, decode (cwOf true false w) = .ok .init := by decide

theorem decode_dec : ∀ w : CodeWord, w.toNat ≤ 15 →
    decode (cwOf false true w) = .ok (decInstr (codeOf w)) := by decide

theorem decode_initdec : ∀ w : CodeWord, w.toNat ≤ 15 →
    decode (cwOf true true w) = .ok (.initdec w) := by decide

theorem decode_invalidCode : ∀ w : CodeWord, 15 < w.toNat →
    decode (cwOf false true w) = .error (.invalidCode w) := by decide

theorem decode_initInvalidCode : ∀ w : CodeWord, 15 < w.toNat →
    decode (cwOf true true w) = .error (.initInvalidCode w) := by decide

theorem validCode_cases : ∀ w : CodeWord, w.toNat ≤ 15 →
    (w = 0 ∨ w = 1 ∨ w = 2 ∨ w = 3 ∨ w = 4 ∨ w = 5 ∨ w = 6 ∨ w = 7) ∨
    (w = 8 ∨ w = 9 ∨ w = 10 ∨ w = 11 ∨ w = 12 ∨ w = 13 ∨ w = 14 ∨ w = 15) := by decide

/-- The sixteen DEC meanings are the decode command with their own code. -/
theorem exec_decInstr {w : CodeWord} (h : w.toNat ≤ 15) (s : State) :
    exec (decInstr (codeOf w)) s = .next (decodeCommand w s) := by
  rcases validCode_cases w h with h | h <;>
    rcases h with h | h | h | h | h | h | h | h <;> subst h <;> rfl

/-! ### One event -/

/-- The effect of one event on the engine, by the fields of the command word. -/
def effect (e : Event) (s : State) : State :=
  match e with
  | .reset _ => freshStart s
  | .command cw =>
    if cwCodeValid cw then
      if cwInit cw then initDecode (cwCode cw) s
      else decodeCommand (cwCode cw) s
    else if cwInit cw then freshStart s else s.quiet

theorem step_present_fields (i v : Bool) (w : CodeWord) (s : State) :
    step (present (.command (cwOf i v w)) s) = .next (effect (.command (cwOf i v w)) s) := by
  simp only [step, present, nextInput, List.head?_cons, State.dropInput, List.tail_cons, effect,
    cwInit_cwOf, cwCodeValid_cwOf, cwCode_cwOf]
  rcases i with _ | _ <;> rcases v with _ | _
  · rw [decode_idle]; rfl
  · rcases Nat.lt_or_ge 15 w.toNat with h | h
    · rw [decode_invalidCode _ h]; rfl
    · rw [decode_dec _ h]; exact exec_decInstr h _
  · rw [decode_init]; rfl
  · rcases Nat.lt_or_ge 15 w.toNat with h | h
    · rw [decode_initInvalidCode _ h]; rfl
    · rw [decode_initdec _ h]; rfl

/-- A step on a presented event is the event's effect. -/
theorem step_present (e : Event) (s : State) : step (present e s) = .next (effect e s) := by
  rcases e with port | cw
  · rfl
  · rw [← cwOf_fields cw]; exact step_present_fields _ _ _ s

/-- A step from any state: IDLE where no event is left, else the effect of the first event. -/
theorem step_cases (s : State) :
    (s.inputs = [] ∧ step s = .next s.quiet) ∨
    ∃ e rest, s.inputs = e :: rest ∧ step s = .next (effect e { s with inputs := rest }) := by
  rcases hs : s.inputs with _ | ⟨e, rest⟩
  · refine .inl ⟨rfl, ?_⟩
    simp only [step, nextInput, hs, List.head?_nil, exec, execIdle, State.quiet, State.dropInput,
      List.tail_nil]
  · refine .inr ⟨e, rest, rfl, ?_⟩
    rw [← step_present]; simp [present, ← hs]

@[simp] theorem effect_inputs (e : Event) (s : State) : (effect e s).inputs = s.inputs := by
  rcases e with port | cw
  · rfl
  · simp only [effect]; split
    · split <;> simp
    · split <;> rfl

/-- No event writes the table (20_memory.md R42). -/
@[simp] theorem effect_table (e : Event) (s : State) : (effect e s).table = s.table := by
  rcases e with port | cw
  · rfl
  · simp only [effect]; split
    · split <;> simp
    · split <;> rfl

/-- The effect of an event does not depend on the events still to come. -/
theorem effect_with_inputs (e : Event) (s : State) (l : List Event) :
    effect e { s with inputs := l } = { effect e s with inputs := l } := by
  rcases e with port | cw
  · rfl
  · have dec : ∀ u : State, decodeCommand (cwCode cw) { u with inputs := l }
        = { decodeCommand (cwCode cw) u with inputs := l } := by
      intro u
      by_cases hu : u.err = true
      · rw [decodeCommand_frozen _ hu,
          decodeCommand_frozen (s := { u with inputs := l }) _ hu]
        rfl
      have hf : u.err = false := by simpa using hu
      rcases Nat.lt_or_ge 15 (cwCode cw).toNat with h | h
      · rw [decodeCommand_invalid hf h,
          decodeCommand_invalid (s := { u with inputs := l }) hf h]
        rfl
      · rw [decodeCommand_valid hf h,
          decodeCommand_valid (s := { u with inputs := l }) hf h]
        rfl
    simp only [effect]; split
    · split
      · exact dec (freshStart s)
      · exact dec s
    · split <;> rfl

/-! ### Runs -/

/-- The effect of a sequence of events. -/
def effects (es : List Event) (s : State) : State := es.foldl (fun s e => effect e s) s

@[simp] theorem effects_nil (s : State) : effects [] s = s := rfl

@[simp] theorem effects_cons (e : Event) (es : List Event) (s : State) :
    effects (e :: es) s = effects es (effect e s) := rfl

theorem effects_append (es fs : List Event) (s : State) :
    effects (es ++ fs) s = effects fs (effects es s) := List.foldl_append

theorem effects_with_inputs (es : List Event) (s : State) (l : List Event) :
    effects es { s with inputs := l } = { effects es s with inputs := l } := by
  induction es generalizing s with
  | nil => rfl
  | cons e es ih => rw [effects_cons, effect_with_inputs, ih, effects_cons]

@[simp] theorem effects_table (es : List Event) (s : State) : (effects es s).table = s.table := by
  induction es generalizing s with
  | nil => rfl
  | cons e es ih => rw [effects_cons, ih, effect_table]

/-- A run over an event sequence answers the effect of the sequence, with no event left. -/
theorem play_eq (es : List Event) (s : State) :
    play es s = .next { effects es s with inputs := [] } := by
  unfold play
  induction es generalizing s with
  | nil => rfl
  | cons e es ih =>
    have h : step { s with inputs := e :: es } = .next (effect e { s with inputs := es }) :=
      step_present e { s with inputs := es }
    rw [List.length_cons, runSteps, h, effect_with_inputs]
    exact ih (effect e s)

theorem run_next (M : Host.Core) (n : Nat) (s t : M.State) (h : M.step s = .next t) :
    M.run (n + 1) s = M.run n t := by
  rw [Host.Core.run, h]

/-- The model's runner is the host's. -/
theorem runSteps_eq_host (n : Nat) (s : State) : Host.Core.run Sys2Proof.core n s = runSteps n s := by
  induction n generalizing s with
  | zero => rfl
  | succ n ih =>
    obtain ⟨t, h⟩ : ∃ t, step s = .next t := by
      rcases step_cases s with ⟨-, h⟩ | ⟨_, _, -, h⟩ <;> exact ⟨_, h⟩
    rw [runSteps, h]
    exact (run_next Sys2Proof.core n s t h).trans (ih t)

/-- The machine of the host's interface is the one with the default table. -/
theorem coreWith_default : coreWith stepTable = Sys2Proof.core := rfl

/-! ### The kinds of events -/

/-- All that an event can be in a state, each with its effect: a start alone, nothing, a decode step, a
start with a decode step, the exception, a start with the exception. -/
inductive Kind (e : Event) (s : State) : Prop
  | fresh (starts : startsDecode e) (noRaise : ¬ raises s e) (noStep : ¬ completes s e)
      (eq : effect e s = freshStart s)
  | quiet (noStart : ¬ startsDecode e) (noRaise : ¬ raises s e) (noStep : ¬ completes s e)
      (eq : effect e s = s.quiet)
  | step (w : CodeWord) (valid : w.toNat ≤ 15) (word : e = decEvent w)
      (noStart : ¬ startsDecode e) (notFrozen : s.err = false) (noRaise : ¬ raises s e)
      (stepDone : completes s e) (eq : effect e s = decStep (codeOf w) s)
  | startStep (w : CodeWord) (valid : w.toNat ≤ 15) (starts : startsDecode e)
      (noRaise : ¬ raises s e) (stepDone : completes s e)
      (eq : effect e s = decStep (codeOf w) (freshStart s))
  | raise (w : CodeWord) (noStart : ¬ startsDecode e) (notFrozen : s.err = false)
      (raised : raises s e) (noStep : ¬ completes s e) (eq : effect e s = raiseInvalidCode w s)
  | startRaise (w : CodeWord) (starts : startsDecode e) (raised : raises s e)
      (noStep : ¬ completes s e) (eq : effect e s = raiseInvalidCode w (freshStart s))

theorem kind (e : Event) (s : State) : Kind e s := by
  rcases e with port | cw
  · exact .fresh trivial (by simp [raises]) (by simp [completes]) rfl
  obtain ⟨i, v, w, rfl⟩ : ∃ i v w, cw = cwOf i v w := ⟨_, _, _, (cwOf_fields cw).symm⟩
  rcases v with _ | _
  · rcases i with _ | _
    · exact .quiet (by simp [startsDecode]) (by simp [raises, illegalWord]) (by simp [completes])
        (by simp [effect])
    · exact .fresh (by simp [startsDecode]) (by simp [raises, illegalWord]) (by simp [completes])
        (by simp [effect])
  have hinit : effect (.command (cwOf true true w)) s = initDecode w s := by
    simp [effect]
  have hdec : effect (.command (cwOf false true w)) s = decodeCommand w s := by
    simp [effect]
  rcases Nat.lt_or_ge 15 w.toNat with h | h
  · have hle : ¬ w.toNat ≤ 15 := by omega
    rcases i with _ | _
    · rcases he : s.err with _ | _
      · exact .raise w (by simp [startsDecode]) he (by simp [raises, illegalWord, h, he])
          (by simp [completes, hle]) (hdec.trans (decodeCommand_invalid he h))
      · exact .quiet (by simp [startsDecode]) (by simp [raises, he]) (by simp [completes, he])
          (hdec.trans (decodeCommand_frozen _ he))
    · exact .startRaise w (by simp [startsDecode]) (by simp [raises, illegalWord, h])
        (by simp [completes, hle]) (hinit.trans (decodeCommand_invalid rfl h))
  · have hlt : ¬ 15 < w.toNat := by omega
    rcases i with _ | _
    · rcases he : s.err with _ | _
      · exact .step w h rfl (by simp [startsDecode]) he (by simp [raises, illegalWord, hlt])
          (by simp [completes, h, he]) (hdec.trans (decodeCommand_valid he h))
      · exact .quiet (by simp [startsDecode]) (by simp [raises, he]) (by simp [completes, he])
          (hdec.trans (decodeCommand_frozen _ he))
    · exact .startStep w h (by simp [startsDecode]) (by simp [raises, illegalWord, hlt])
        (by simp [completes, h]) (hinit.trans (decodeCommand_valid rfl h))

end Sys2Proof.Machine
end

