-- ==== Sys2Proof/Tests/Slice0.lean ====
section
/-! SUPPORT. The model's own tests. Expected values are the spec's: the words of 30_encoding.md R54 and
R58, the examples of rules R65 to R67 and R84 to R99, the vectors of 95_test_vectors.md. The witnesses
show states and operands that meet the hypotheses of the statements. -/

namespace Sys2Proof.Tests

open Sys2Proof.Machine Sys2Proof.Config

/-- A state (PRED, IDX, ERR) as the spec writes it, with nothing emitted and nothing to come. -/
def st (p : Int) (i : StepIndex) (e : Bool) : State :=
  { State.reset with pred := BitVec.ofInt 16 p, idx := i, err := e }

/-- What a step left: PRED, IDX, ERR and the samples emitted. -/
def left (o : Host.Outcome State Fault Refusal) : Option (Int × Nat × Bool × List Int) :=
  match o with
  | .next t => some (t.pred.toInt, t.idx.val, t.err, t.samples.map BitVec.toInt)
  | .fault _ => none
  | .refused _ => none

/-- An admissible table that is not the default: 7, then 32767 (20_memory.md R34). -/
def steepEntries : List Nat := 7 :: List.replicate 88 32767

def steepTable : StepTable := ⟨steepEntries, by decide⟩

/-! ### WellFormed smoke tests -/

theorem test_wf_refuses_initdec_16 : (Instr.initdec 16).wf = false := by decide

theorem test_wf_refuses_initdec_255 : (Instr.initdec 255).wf = false := by decide

theorem test_wf_accepts_initdec_15 : (Instr.initdec 15).wf = true := by decide

/-! ### Decoding: words written out bit by bit -/

theorem test_decode_idle : decode 0b0011111111#10 = .ok .idle := by decide

theorem test_decode_init : decode 0b1011111111#10 = .ok .init := by decide

theorem test_decode_dec0 : decode 0b0100000000#10 = .ok .dec0 := by decide

theorem test_decode_dec1 : decode 0b0100000001#10 = .ok .dec1 := by decide

theorem test_decode_dec2 : decode 0b0100000010#10 = .ok .dec2 := by decide

theorem test_decode_dec3 : decode 0b0100000011#10 = .ok .dec3 := by decide

theorem test_decode_dec4 : decode 0b0100000100#10 = .ok .dec4 := by decide

theorem test_decode_dec5 : decode 0b0100000101#10 = .ok .dec5 := by decide

theorem test_decode_dec6 : decode 0b0100000110#10 = .ok .dec6 := by decide

theorem test_decode_dec7 : decode 0b0100000111#10 = .ok .dec7 := by decide

theorem test_decode_dec8 : decode 0b0100001000#10 = .ok .dec8 := by decide

theorem test_decode_dec9 : decode 0b0100001001#10 = .ok .dec9 := by decide

theorem test_decode_dec10 : decode 0b0100001010#10 = .ok .dec10 := by decide

theorem test_decode_dec11 : decode 0b0100001011#10 = .ok .dec11 := by decide

theorem test_decode_dec12 : decode 0b0100001100#10 = .ok .dec12 := by decide

theorem test_decode_dec13 : decode 0b0100001101#10 = .ok .dec13 := by decide

theorem test_decode_dec14 : decode 0b0100001110#10 = .ok .dec14 := by decide

theorem test_decode_dec15 : decode 0b0100001111#10 = .ok .dec15 := by decide

theorem test_decode_initdec : decode 0b1100001011#10 = .ok (.initdec 11) := by decide

theorem test_decode_initdec_0 : decode 0b1100000000#10 = .ok (.initdec 0) := by decide

theorem test_decode_word_16 : decode 0b0100010000#10 = .error (.invalidCode 16) := by decide

theorem test_decode_word_255_with_init : decode 0b1111111111#10 = .error (.initInvalidCode 255) := by
  decide

theorem test_table_word : decodeTableWord 16 0x30F = some (.initdec 15) := by decide

theorem test_fetch_word_runs_next :
    left (step (State.reset.withFetchWord 16 0x10F)) = some (-11, 8, false, [-11]) := by decide

/-! ### Decode operations: the second and third example of R84 to R99 -/

theorem test_dec0_mid_range :
    left (exec .dec0 (st 1000 40 false)) = some (1042, 39, false, [1042]) := by decide

theorem test_dec0_clamps :
    left (exec .dec0 (st (32000) 88 false)) = some (32767, 87, false, [32767]) := by decide

theorem test_dec1_mid_range :
    left (exec .dec1 (st 1000 40 false)) = some (1126, 39, false, [1126]) := by decide

theorem test_dec1_clamps :
    left (exec .dec1 (st (32000) 88 false)) = some (32767, 87, false, [32767]) := by decide

theorem test_dec2_mid_range :
    left (exec .dec2 (st 1000 40 false)) = some (1210, 39, false, [1210]) := by decide

theorem test_dec2_clamps :
    left (exec .dec2 (st (32000) 88 false)) = some (32767, 87, false, [32767]) := by decide

theorem test_dec3_mid_range :
    left (exec .dec3 (st 1000 40 false)) = some (1294, 39, false, [1294]) := by decide

theorem test_dec3_clamps :
    left (exec .dec3 (st (32000) 88 false)) = some (32767, 87, false, [32767]) := by decide

theorem test_dec4_mid_range :
    left (exec .dec4 (st 1000 40 false)) = some (1379, 42, false, [1379]) := by decide

theorem test_dec4_clamps :
    left (exec .dec4 (st (32000) 88 false)) = some (32767, 88, false, [32767]) := by decide

theorem test_dec5_mid_range :
    left (exec .dec5 (st 1000 40 false)) = some (1463, 44, false, [1463]) := by decide

theorem test_dec5_clamps :
    left (exec .dec5 (st (32000) 88 false)) = some (32767, 88, false, [32767]) := by decide

theorem test_dec6_mid_range :
    left (exec .dec6 (st 1000 40 false)) = some (1547, 46, false, [1547]) := by decide

theorem test_dec6_clamps :
    left (exec .dec6 (st (32000) 88 false)) = some (32767, 88, false, [32767]) := by decide

theorem test_dec7_mid_range :
    left (exec .dec7 (st 1000 40 false)) = some (1631, 48, false, [1631]) := by decide

theorem test_dec7_clamps :
    left (exec .dec7 (st (32000) 88 false)) = some (32767, 88, false, [32767]) := by decide

theorem test_dec8_mid_range :
    left (exec .dec8 (st 1000 40 false)) = some (958, 39, false, [958]) := by decide

theorem test_dec8_clamps :
    left (exec .dec8 (st (-32000) 88 false)) = some (-32768, 87, false, [-32768]) := by decide

theorem test_dec9_mid_range :
    left (exec .dec9 (st 1000 40 false)) = some (874, 39, false, [874]) := by decide

theorem test_dec9_clamps :
    left (exec .dec9 (st (-32000) 88 false)) = some (-32768, 87, false, [-32768]) := by decide

theorem test_dec10_mid_range :
    left (exec .dec10 (st 1000 40 false)) = some (790, 39, false, [790]) := by decide

theorem test_dec10_clamps :
    left (exec .dec10 (st (-32000) 88 false)) = some (-32768, 87, false, [-32768]) := by decide

theorem test_dec11_mid_range :
    left (exec .dec11 (st 1000 40 false)) = some (706, 39, false, [706]) := by decide

theorem test_dec11_clamps :
    left (exec .dec11 (st (-32000) 88 false)) = some (-32768, 87, false, [-32768]) := by decide

theorem test_dec12_mid_range :
    left (exec .dec12 (st 1000 40 false)) = some (621, 42, false, [621]) := by decide

theorem test_dec12_clamps :
    left (exec .dec12 (st (-32000) 88 false)) = some (-32768, 88, false, [-32768]) := by decide

theorem test_dec13_mid_range :
    left (exec .dec13 (st 1000 40 false)) = some (537, 44, false, [537]) := by decide

theorem test_dec13_clamps :
    left (exec .dec13 (st (-32000) 88 false)) = some (-32768, 88, false, [-32768]) := by decide

theorem test_dec14_mid_range :
    left (exec .dec14 (st 1000 40 false)) = some (453, 46, false, [453]) := by decide

theorem test_dec14_clamps :
    left (exec .dec14 (st (-32000) 88 false)) = some (-32768, 88, false, [-32768]) := by decide

theorem test_dec15_mid_range :
    left (exec .dec15 (st 1000 40 false)) = some (369, 48, false, [369]) := by decide

theorem test_dec15_clamps :
    left (exec .dec15 (st (-32000) 88 false)) = some (-32768, 88, false, [-32768]) := by decide

/-- V37: a sum one below the lower bound. -/
theorem test_dec8_one_below_the_bound :
    left (exec .dec8 (st (-28674) 88 false)) = some (-32768, 87, false, [-32768]) := by decide

/-! ### Control operations and the fault: 95_test_vectors.md 2c and 2d -/

/-- V61. -/
theorem test_idle_with_junk :
    left (step (present (.command 0x0FF#10) (st (-11) 8 false))) = some (-11, 8, false, []) := by
  decide

/-- V76: no code is presented, so 16 in the low byte raises nothing. -/
theorem test_idle_word_16 :
    left (step (present (.command 0x010#10) State.reset)) = some (0, 0, false, []) := by decide

/-- V63. -/
theorem test_init_clears_err : left (exec .init (st 41 16 true)) = some (0, 0, false, []) := by decide

/-- V64. -/
theorem test_init_with_junk :
    left (step (present (.command 0x2FF#10) (st 41 16 true))) = some (0, 0, false, []) := by decide

/-- V65. -/
theorem test_initdec_15 :
    left (exec (.initdec 15) (st 1164 48 false)) = some (-11, 8, false, [-11]) := by decide

/-- V66. -/
theorem test_initdec_7_restarts :
    left (exec (.initdec 7) (st 41 16 true)) = some (11, 8, false, [11]) := by decide

/-- V67. -/
theorem test_initdec_invalid_word_16 :
    left (step (present (.command 0x310#10) (st 1164 48 false))) = some (0, 0, true, []) := by decide

/-- V75: a masking engine would decode 0x1F as code 15. -/
theorem test_word_31_is_not_masked :
    left (step (present (.command 0x11F#10) State.reset)) = some (0, 0, true, []) := by decide

/-- V72. -/
theorem test_second_invalid_word :
    left (step (present (.command 0x1FF#10) (st 41 16 true))) = some (41, 16, true, []) := by decide

/-- V73. -/
theorem test_frozen_dec15 : left (exec .dec15 (st 41 16 true)) = some (41, 16, true, []) := by decide

/-- V68. -/
theorem test_reset_event :
    left (step (present (.reset 0x107#10) (st 41 16 true))) = some (0, 0, false, []) := by decide

/-- R34: a table with entry 0 other than 7 is no value of the parameter. -/
theorem test_table_argument_refused : stepTableOf? (List.replicate 89 8) = none := by decide

/-- R34: nor is one with 88 entries, with an entry 32768, or with a decreasing pair. -/
theorem test_table_arguments_refused :
    [7 :: List.replicate 87 8, List.replicate 88 7 ++ [32768], 7 :: 9 :: List.replicate 87 8].map
      stepTableOf? = [none, none, none] := by decide

/-- R5, R72: an engine with another table steps by it, 32767 / 8 at index 1 in place of 8 / 8. -/
theorem test_step_reads_the_table_argument :
    left (step (present (decEvent 0) { State.resetWith steepTable with idx := 1 }))
      = some (4095, 0, false, [4095]) := by decide

/-! ### Witnesses: the hypotheses of the statements can be met -/

/-- OpcodeMapByFields, DecodeCommandAdmission, InitdecIsInitThenDecode, InvalidCodeEntry and every other
statement with a valid or an invalid code: both, at the boundary. -/
theorem witness_codes : (15 : CodeWord).toNat ≤ 15 ∧ 15 < (16 : CodeWord).toNat := by decide

/-- Every statement about an engine that is frozen, or that is not. -/
theorem witness_err : (st 41 16 true).err = true ∧ (st (-11) 8 false).err = false := by decide

/-- DecodeEncodeRoundTrip. -/
theorem witness_well_formed : (Instr.initdec 15).wf = true ∧ Instr.dec0.wf = true := by decide

/-- EncodeDecodeIsCanonical. -/
theorem witness_decodes : decode 0x30F#10 = .ok (.initdec 15) ∧ decode 0x0FF#10 = .ok .idle := by
  decide

/-- IllegalWordsAreRefusedAndReported, at both ends of the illegal range. -/
theorem witness_illegal : illegalWord 0x110#10 ∧ illegalWord 0x3FF#10 := by
  unfold illegalWord; decide

/-- StepRunsTheDecodedInstruction, each clause. -/
theorem witness_step_inputs :
    (present (.command 0x107#10) State.reset).inputs = [.command 0x107#10] ∧
    decode 0x107#10 = .ok .dec7 ∧
    (present (.command 0x110#10) State.reset).inputs = [.command 0x110#10] ∧
    decode 0x110#10 = .error (.invalidCode 16) ∧
    (present (.reset 0#10) State.reset).inputs = [.reset 0#10] ∧
    State.reset.inputs = [] ∧ decodeTableWord 16 0x107 = some .dec7 := by decide

/-- EveryRunCompletes, its last clause. -/
theorem witness_no_inputs : (st 41 16 true).inputs = [] := by decide

/-- StepDependsOnlyOnTheThreeElements: two states that differ elsewhere. -/
theorem witness_same_three :
    (st 5 1 false).table = ((st 5 1 false).emit 9).table ∧
    (st 5 1 false).pred = ((st 5 1 false).emit 9).pred ∧
    (st 5 1 false).idx = ((st 5 1 false).emit 9).idx ∧
    (st 5 1 false).err = ((st 5 1 false).emit 9).err ∧
    (st 5 1 false).samples ≠ ((st 5 1 false).emit 9).samples := by decide

/-- OutputsShowStateAndNoOtherWritePath: a step that changes PRED and IDX. -/
theorem witness_registers_change : ∃ t,
    step (present (decEvent 7) State.reset) = .next t ∧ t.pred = 11 ∧ t.idx = 8 :=
  ⟨_, rfl, by decide, by decide⟩

/-- InitMakesTheFreshState, its last clause. -/
theorem witness_fresh : (st 0 0 false).pred = 0 ∧ (st 0 0 false).idx = 0 ∧ (st 0 0 false).err = false := by
  decide

/-- IndexAdjustTable, both clauses. -/
theorem witness_magnitude_bit : (3 : Code).getLsbD 2 = false ∧ (4 : Code).getLsbD 2 = true := by decide

/-- DifferenceIsSumOfTruncatedTerms, its clause at multiples of 8. -/
theorem witness_multiple_of_8 : 16 % 8 = 0 := by decide

/-- StepTableArgumentCheck and TableIsAParameterNoStepWrites: lists that meet the constraints, at both
ends of the range of an entry. -/
theorem witness_admissible :
    TableConstraints stepEntries ∧ TableConstraints steepEntries ∧
    TableConstraints (List.replicate 89 7) := by
  unfold TableConstraints; decide

/-- StepTableArgumentCheck, its second clause: lists that break one constraint each, at the boundary. -/
theorem witness_not_admissible :
    ¬ TableConstraints (7 :: List.replicate 87 8) ∧ ¬ TableConstraints (7 :: List.replicate 89 8) ∧
    ¬ TableConstraints (List.replicate 89 8) ∧
    ¬ TableConstraints (List.replicate 88 7 ++ [32768]) ∧
    ¬ TableConstraints (7 :: 0 :: List.replicate 87 8) ∧
    ¬ TableConstraints (7 :: 9 :: List.replicate 87 8) := by
  unfold TableConstraints; decide

/-- TableIsAParameterNoStepWrites, its second clause: a step of an engine whose table is not the
default. -/
theorem witness_other_table_steps : ∃ t,
    step (present (decEvent 7) (State.resetWith steepTable)) = .next t ∧ t.table ≠ stepTable :=
  ⟨_, rfl, by decide⟩

/-- StepReadsArePositiveAndMonotone and DefaultStepTableChecks. -/
theorem witness_index_order : (87 : StepIndex) < 88 ∧ (87 : StepIndex) ≤ 88 := by decide

/-- ErrChangesExactlyAsStated and OneSamplePerCompletedDecode: an event of each kind. -/
theorem witness_event_kinds :
    completes State.reset (decEvent 15) ∧ completes (st 41 16 true) (initdecEvent 15) ∧
    ¬ completes (st 41 16 true) (decEvent 15) ∧ raises State.reset (decEvent 16) ∧
    raises (st 41 16 true) (initdecEvent 16) ∧ ¬ raises (st 41 16 true) (decEvent 16) := by
  simp only [completes, raises, illegalWord, decEvent, initdecEvent]; decide

/-- FrozenIgnoresEveryDecodeCommand, DecodeIsPure and OnlyARestartEndsTheFrozenCondition: events that
start no decode. -/
theorem witness_no_start : ∀ e ∈ [decEvent 7, idleEvent, decEvent 16], ¬ startsDecode e := by
  simp only [List.mem_cons, List.not_mem_nil, or_false, forall_eq_or_imp, forall_eq, startsDecode,
    decEvent, idleEvent]
  decide

/-- StepKeepsOutputsAgree: a state with a valid sample, and a step from it. -/
theorem witness_outputs_agree :
    OutputsAgree ((st 0 0 false).setRegs 11 8 |>.emit 11) ∧
    ∃ t, step ((st 0 0 false).setRegs 11 8 |>.emit 11) = .next t := by
  refine ⟨?_, _, rfl⟩
  unfold OutputsAgree; decide

/-- ChunkingIsInvisible, its second clause, and DecodeIsPure: two states of one engine. -/
theorem witness_one_table : (st 41 16 true).table = (st 5 1 false).table := rfl

/-- SamplesMatchCodesOneToOne and InvalidCodeAbortsTheDecode: codes, with and without an invalid one. -/
theorem witness_code_lists :
    (∀ w ∈ [(0 : CodeWord), 15], w.toNat ≤ 15) ∧ 15 < (255 : CodeWord).toNat := by decide

/-- ChunkingIsInvisible: a sequence with IDLE commands between two chunks. -/
theorem witness_chunks :
    ([initEvent, decEvent 15, decEvent 7, idleEvent, .command 0x0FF#10, decEvent 8].filter
      fun e => !isIdle e) = frame [15, 7] ++ chunk [8] := by decide

/-- ReachableStatesInRangeAndEndsReached. -/
theorem witness_reachable : Reachable stepTable State.reset ∧
    Reachable steepTable (State.resetWith steepTable) := ⟨⟨[], rfl⟩, ⟨[], rfl⟩⟩

end Sys2Proof.Tests
end

section
/-! PROOFS. The family 10_state.md: what one event does to PRED, IDX, ERR and the samples, field by
field, and the statements on the state that follow from it. -/

namespace Sys2Proof.Machine

/-! ### The shared operations, field by field -/

@[simp] theorem decStep_err (c : Code) (s : State) : (decStep c s).err = s.err := rfl
@[simp] theorem decStep_sampleValid (c : Code) (s : State) : (decStep c s).sampleValid = true := rfl
@[simp] theorem decStep_samples (c : Code) (s : State) :
    (decStep c s).samples = s.samples ++ [(decStep c s).pred] := rfl

@[simp] theorem freshStart_pred (s : State) : (freshStart s).pred = 0 := rfl
@[simp] theorem freshStart_idx (s : State) : (freshStart s).idx = 0 := rfl
@[simp] theorem freshStart_err (s : State) : (freshStart s).err = false := rfl
@[simp] theorem freshStart_sampleValid (s : State) : (freshStart s).sampleValid = false := rfl
@[simp] theorem freshStart_samples (s : State) : (freshStart s).samples = s.samples := rfl

section
variable (w : CodeWord) (s : State)

@[simp] theorem raiseInvalidCode_pred : (raiseInvalidCode w s).pred = s.pred := rfl
@[simp] theorem raiseInvalidCode_idx : (raiseInvalidCode w s).idx = s.idx := rfl
@[simp] theorem raiseInvalidCode_err : (raiseInvalidCode w s).err = true := rfl
@[simp] theorem raiseInvalidCode_sampleValid : (raiseInvalidCode w s).sampleValid = false := rfl
@[simp] theorem raiseInvalidCode_samples : (raiseInvalidCode w s).samples = s.samples := rfl

end

/-! ### The flag ERR and the samples after one event -/

/-- R15: ERR is 1 after an event that raises InvalidCode, or where it was 1 and no decode starts. -/
theorem effect_err_iff (e : Event) (s : State) :
    (effect e s).err = true ↔ raises s e ∨ (s.err = true ∧ ¬ startsDecode e) := by
  cases kind e s with
  | fresh starts noRaise _ eq => simp [eq, starts, noRaise]
  | quiet noStart noRaise _ eq => simp [eq, noStart, noRaise]
  | step _ _ _ _ notFrozen noRaise _ eq => simp [eq, notFrozen, noRaise]
  | startStep _ _ starts noRaise _ eq => simp [eq, starts, noRaise]
  | raise _ _ _ raised _ eq => simp [eq, raised]
  | startRaise _ _ raised _ eq => simp [eq, raised]

/-- R19: an event that completes a decode step emits the new PRED. -/
theorem effect_samples_of_completes {e : Event} {s : State} (h : completes s e) :
    (effect e s).samples = s.samples ++ [(effect e s).pred] ∧ (effect e s).sampleValid = true := by
  cases kind e s with
  | fresh _ _ noStep _ => exact absurd h noStep
  | quiet _ _ noStep _ => exact absurd h noStep
  | step _ _ _ _ _ _ _ eq => simp [eq]
  | startStep _ _ _ _ _ eq => simp [eq]
  | raise _ _ _ _ noStep _ => exact absurd h noStep
  | startRaise _ _ _ noStep _ => exact absurd h noStep

/-- R19: an event that completes no decode step emits nothing. -/
theorem effect_samples_of_not_completes {e : Event} {s : State} (h : ¬ completes s e) :
    (effect e s).samples = s.samples ∧ (effect e s).sampleValid = false := by
  cases kind e s with
  | fresh _ _ _ eq => simp [eq]
  | quiet _ _ _ eq => simp [eq]
  | step _ _ _ _ _ _ stepDone _ => exact absurd stepDone h
  | startStep _ _ _ _ stepDone _ => exact absurd stepDone h
  | raise _ _ _ _ _ eq => simp [eq]
  | startRaise _ _ _ _ eq => simp [eq]

/-! ### The write paths of PRED and IDX -/

/-- An event that starts a decode, or a DEC with a valid code on an engine that is not frozen: the
events that may write PRED or IDX (R16). -/
def MayWriteRegs (s : State) (e : Event) : Prop :=
  startsDecode e ∨ ∃ w : CodeWord, w.toNat ≤ 15 ∧ e = decEvent w ∧ s.err = false

/-- Every other event leaves both registers as they are. -/
theorem effect_regs_of_not_mayWriteRegs {e : Event} {s : State} (h : ¬ MayWriteRegs s e) :
    (effect e s).pred = s.pred ∧ (effect e s).idx = s.idx := by
  cases kind e s with
  | fresh starts _ _ _ => exact absurd (.inl starts) h
  | quiet _ _ _ eq => simp [eq]
  | step w valid word _ notFrozen _ _ _ => exact absurd (.inr ⟨w, valid, word, notFrozen⟩) h
  | startStep _ _ starts _ _ _ => exact absurd (.inl starts) h
  | raise _ _ _ _ _ eq => simp [eq]
  | startRaise _ starts _ _ _ => exact absurd (.inl starts) h

/-- `idx_o` has room for every index (R16). -/
theorem idxO_toNat (s : State) : (idxO s).toNat = s.idx.val := by
  have h := s.idx.isLt
  simp only [idxO, BitVec.toNat_ofNat]
  omega

/-! ### Two states with the same three elements -/

/-- Two states of one engine that agree on PRED, IDX and ERR (R18). -/
structure SameElements (s s' : State) : Prop where
  table : s.table = s'.table
  pred : s.pred = s'.pred
  idx : s.idx = s'.idx
  err : s.err = s'.err

/-- `t` and `t'` agree on all that an event writes, and have the same new samples beyond `s` and
`s'`. -/
def EndAlike (s s' t t' : State) : Prop :=
  t.pred = t'.pred ∧ t.idx = t'.idx ∧ t.err = t'.err ∧ t.sampleValid = t'.sampleValid ∧
  ∃ new : List Sample, t.samples = s.samples ++ new ∧ t'.samples = s'.samples ++ new

/-- Two states that agree on all that an event writes and emit nothing end alike. -/
theorem EndAlike.of_no_sample {s s' t t' : State} (hp : t.pred = t'.pred) (hi : t.idx = t'.idx)
    (he : t.err = t'.err) (hv : t.sampleValid = t'.sampleValid) (hs : t.samples = s.samples)
    (hs' : t'.samples = s'.samples) : EndAlike s s' t t' :=
  ⟨hp, hi, he, hv, [], by simp [hs], by simp [hs']⟩

theorem freshStart_sameElements {s s' : State} (h : s.table = s'.table) :
    SameElements (freshStart s) (freshStart s') := ⟨h, rfl, rfl, rfl⟩

theorem freshStart_endAlike (s s' : State) : EndAlike s s' (freshStart s) (freshStart s') :=
  .of_no_sample rfl rfl rfl rfl rfl rfl

section
variable {s s' : State} (h : SameElements s s')
include h

theorem SameElements.quiet_endAlike : EndAlike s s' s.quiet s'.quiet :=
  .of_no_sample h.pred h.idx h.err rfl rfl rfl

theorem SameElements.raiseInvalidCode_endAlike (w : CodeWord) :
    EndAlike s s' (raiseInvalidCode w s) (raiseInvalidCode w s') :=
  .of_no_sample h.pred h.idx rfl rfl rfl rfl

/-- The decode step reads the table, PRED and IDX and nothing else. -/
theorem SameElements.decStep_endAlike (c : Code) :
    EndAlike s s' (decStep c s) (decStep c s') := by
  have hp : (decStep c s).pred = (decStep c s').pred := by
    simp only [decStep_eq, h.table, h.pred, h.idx]
  have hi : (decStep c s).idx = (decStep c s').idx := by simp only [decStep_eq, h.idx]
  exact ⟨hp, hi, h.err, rfl, [(decStep c s).pred], rfl, by rw [decStep_samples, hp]⟩

theorem SameElements.decodeCommand_endAlike (w : CodeWord) :
    EndAlike s s' (decodeCommand w s) (decodeCommand w s') := by
  cases he : s.err with
  | true =>
    rw [decodeCommand_frozen w he, decodeCommand_frozen w (h.err ▸ he)]
    exact h.quiet_endAlike
  | false =>
    have he' : s'.err = false := h.err ▸ he
    rcases Nat.lt_or_ge 15 w.toNat with hw | hw
    · rw [decodeCommand_invalid he hw, decodeCommand_invalid he' hw]
      exact h.raiseInvalidCode_endAlike w
    · rw [decodeCommand_valid he hw, decodeCommand_valid he' hw]
      exact h.decStep_endAlike (codeOf w)

/-- R18 for the effect of one event. -/
theorem SameElements.effect_endAlike (e : Event) : EndAlike s s' (effect e s) (effect e s') := by
  rcases e with port | cw
  · exact freshStart_endAlike s s'
  · simp only [effect]
    split
    · split
      · exact (freshStart_sameElements h.table).decodeCommand_endAlike (cwCode cw)
      · exact h.decodeCommand_endAlike (cwCode cw)
    · split
      · exact freshStart_endAlike s s'
      · exact h.quiet_endAlike

end

/-! ### The statements -/

/-- Settles O10: each branch of an event's effect reads the table and the three elements alone. -/
theorem stepDependsOnlyOnTheThreeElements : Obligations.StepDependsOnlyOnTheThreeElements := by
  intro e s s' hT hp hi he
  have h : SameElements s s' := ⟨hT, hp, hi, he⟩
  obtain ⟨hpred, hidx, herr, hvalid, new, hs, hs'⟩ := h.effect_endAlike e
  exact ⟨effect e s, effect e s', new, step_present e s, step_present e s',
    hpred, hidx, herr, hvalid, hs, hs'⟩

/-- Settles O11: a step is an IDLE or the effect of the first event, and only the write paths of R16
change a register. -/
theorem outputsShowStateAndNoOtherWritePath : Obligations.OutputsShowStateAndNoOtherWritePath := by
  refine ⟨fun s => ⟨rfl, idxO_toNat s, rfl⟩, fun s t hstep hchange => ?_⟩
  rcases step_cases s with ⟨-, hquiet⟩ | ⟨e, rest, hin, heff⟩
  · obtain rfl : s.quiet = t := by simpa [hquiet] using hstep
    simp at hchange
  · obtain rfl : effect e { s with inputs := rest } = t := by simpa [heff] using hstep
    refine ⟨e, by simp [hin], ?_⟩
    by_contra hno
    have ⟨hpred, hidx⟩ := effect_regs_of_not_mayWriteRegs (s := { s with inputs := rest }) hno
    exact hchange.elim (· hpred) (· hidx)

/-- Settles O29, by what ERR is after an event of each kind. -/
theorem errChangesExactlyAsStated : Obligations.ErrChangesExactlyAsStated := by
  intro e s
  refine ⟨effect e s, step_present e s, rfl, fun he => ?_, fun he => ?_⟩
  · simp [effect_err_iff, he]
  · rw [← Bool.not_eq_true, effect_err_iff]
    simp [he, and_comm]

/-- Settles O33, by what an event emits when it completes a decode step and when it does not. -/
theorem oneSamplePerCompletedDecode : Obligations.OneSamplePerCompletedDecode := fun e s =>
  ⟨effect e s, step_present e s, rfl, effect_samples_of_completes, effect_samples_of_not_completes⟩

end Sys2Proof.Machine
end

section
/-! PROOFS. The family 20_memory.md: the argument check of STEP_TABLE as the spec's constraints, what an
admissible table promises of its reads, the index adjustments, and the order of the commands. -/

namespace Sys2Proof.Machine

open Sys2Proof.Config

/-! ### The argument check of STEP_TABLE -/

/-- R31's neighbour check is that no pair of the list decreases. -/
theorem nonDecreasing_iff_pairwise (l : List Nat) :
    nonDecreasing l = true ↔ l.Pairwise (· ≤ ·) := by
  rw [← List.isChain_iff_pairwise]
  induction l with
  | nil => simp [nonDecreasing]
  | cons a rest ih =>
    cases rest with
    | nil => simp [nonDecreasing]
    | cons b rest => simp [nonDecreasing, ih]

/-- R34: the check accepts exactly the lists that meet the constraints. -/
theorem admissible_iff (l : List Nat) : admissible l = true ↔ TableConstraints l := by
  simp [admissible, TableConstraints, nonDecreasing_iff_pairwise, List.head?_eq_getElem?, and_assoc]

theorem tableConstraints_entries (T : StepTable) : TableConstraints T.entries :=
  (admissible_iff T.entries).mp T.ok

theorem stepTableOf?_of_constraints {l : List Nat} (h : TableConstraints l) :
    stepTableOf? l = some ⟨l, (admissible_iff l).mpr h⟩ :=
  dif_pos ((admissible_iff l).mpr h)

theorem stepTableOf?_of_not_constraints {l : List Nat} (h : ¬ TableConstraints l) :
    stepTableOf? l = none :=
  dif_neg (mt (admissible_iff l).mp h)

/-! ### The reads of an admissible table -/

/-- R32: the step at index 0. -/
theorem stepRead_zero (T : StepTable) : stepRead T 0 = 7 := by
  obtain ⟨-, hzero, -, -⟩ := tableConstraints_entries T
  exact (List.getElem?_eq_some_iff.mp hzero).2

/-- R31: a larger index never gives a smaller step. -/
theorem stepRead_mono (T : StepTable) {i j : StepIndex} (h : i ≤ j) :
    stepRead T i ≤ stepRead T j := by
  obtain ⟨-, -, -, hsorted⟩ := tableConstraints_entries T
  rcases h.eq_or_lt with rfl | hlt
  · exact Nat.le_refl _
  · exact List.pairwise_iff_getElem.mp hsorted _ _ _ _ hlt

/-- Every step read fits 15 bits unsigned. -/
theorem toNat_ofNat_stepRead (T : StepTable) (i : StepIndex) :
    (BitVec.ofNat 15 (stepRead T i)).toNat = stepRead T i := by
  have ⟨_, hle⟩ := stepRead_bounds T i
  rw [BitVec.toNat_ofNat, Nat.mod_eq_of_lt (by omega)]

/-! ### The index adjustments -/

/-- R37: bit 2 selects between -1 and the closed form in the low two bits. -/
theorem adjRead_eq : ∀ c : Code,
    adjRead c = if c.getLsbD 2 = true then 2 * (((c.toNat % 4 : Nat) : Int) + 1) else -1 := by
  decide

/-- R36: the sign bit plays no part. -/
theorem adjRead_flip_sign : ∀ c : Code, adjRead (c ^^^ 8) = adjRead c := by
  decide

/-- Every adjustment fits 5 bits two's complement. -/
theorem toInt_ofInt_adjRead (c : Code) : (BitVec.ofInt 5 (adjRead c)).toInt = adjRead c := by
  have ⟨hlo, hhi⟩ := adjRead_bounds c
  exact BitVec.toInt_ofInt_eq_self (by decide) (by omega) (by omega)

/-! ### The samples along a run -/

/-- R46: an event leaves the samples emitted before it as they are. -/
theorem samples_prefix_effect (e : Event) (s : State) : s.samples <+: (effect e s).samples := by
  by_cases h : completes s e
  · rw [(effect_samples_of_completes h).1]
    exact List.prefix_append _ _
  · rw [(effect_samples_of_not_completes h).1]

theorem samples_prefix_effects (es : List Event) (s : State) :
    s.samples <+: (effects es s).samples := by
  induction es generalizing s with
  | nil => exact List.prefix_rfl
  | cons e es ih => exact (samples_prefix_effect e s).trans (ih (effect e s))

/-- A run over `fs` from the end of a run over `es` ends where the run over both in a row does. -/
theorem play_of_effects (es fs : List Event) (s : State) :
    play fs { effects es s with inputs := [] } = play (es ++ fs) s := by
  rw [play_eq, play_eq, effects_append, effects_with_inputs]

/-! ### The statements -/

/-- Settles O9: a run is the effect of its events in order, and each effect only adds to the samples. -/
theorem commandsRunInOrder : Obligations.CommandsRunInOrder := by
  intro es fs s
  have hrow := play_eq (es ++ fs) s
  refine ⟨_, _, play_eq es s, (play_of_effects es fs s).trans hrow, hrow, ?_⟩
  rw [effects_append]
  exact samples_prefix_effects fs (effects es s)

/-- Settles O26: the check decides the constraints, and a table carries its passed check. -/
theorem stepTableArgumentCheck : Obligations.StepTableArgumentCheck :=
  ⟨fun _ h => ⟨_, stepTableOf?_of_constraints h, rfl⟩,
    fun _ h => stepTableOf?_of_not_constraints h,
    fun T => ⟨tableConstraints_entries T, toNat_ofNat_stepRead T⟩⟩

/-- Settles O27, by the constraints that every table meets. -/
theorem stepReadsArePositiveAndMonotone : Obligations.StepReadsArePositiveAndMonotone := fun T =>
  ⟨T.length_entries, stepRead_zero T, fun i => (stepRead_bounds T i).1, fun _ _ => stepRead_mono T⟩

/-- Settles O25: the list is read off the table, the rest follows from the closed form and the range. -/
theorem indexAdjustTable : Obligations.IndexAdjustTable := by
  refine ⟨by decide, fun c => ?_⟩
  have ⟨hlo, hhi⟩ := adjRead_bounds c
  refine ⟨adjRead_flip_sign c, fun hclear => ?_, fun hset => ?_, hlo, hhi, toInt_ofInt_adjRead c⟩
  · rw [adjRead_eq, hclear, if_neg Bool.false_ne_true]
  · rw [adjRead_eq, if_pos hset]

end Sys2Proof.Machine
end

section
/-! PROOFS. The family 30_encoding.md: the decoder in terms of the three fields of a command word, the
masks of R54 as tests on those fields, and what the illegal words and the ignored low byte do. -/

namespace Sys2Proof.Machine

/-! ### Command words and masks, field by field -/

/-- Two command words are equal exactly if their fields are. -/
theorem cwOf_inj {i i' v v' : Bool} {w w' : CodeWord} :
    cwOf i v w = cwOf i' v' w' ↔ i = i' ∧ v = v' ∧ w = w' := by
  refine ⟨fun h => ⟨?_, ?_, ?_⟩, fun ⟨hi, hv, hw⟩ => by rw [hi, hv, hw]⟩
  · simpa using congrArg cwInit h
  · simpa using congrArg cwCodeValid h
  · simpa using congrArg cwCode h

/-- A mask acts on each field by itself. -/
theorem cwOf_and (i i' v v' : Bool) (w w' : CodeWord) :
    cwOf i v w &&& cwOf i' v' w' = cwOf (i && i') (v && v') (w &&& w') := by
  refine BitVec.and_append.trans ?_
  rw [BitVec.and_append, BitVec.ofBool_and_ofBool, BitVec.ofBool_and_ofBool]
  rfl

/-- The mask 0x300 keeps `init` and `code_valid`. -/
theorem cwOf_and_0x300 (i v : Bool) (w : CodeWord) : cwOf i v w &&& 0x300#10 = cwOf i v 0 := by
  rw [show 0x300#10 = cwOf true true 0 from rfl, cwOf_and]
  simp

/-- The mask 0x3F0 keeps `init`, `code_valid` and the high nibble of the code word. -/
theorem cwOf_and_0x3F0 (i v : Bool) (w : CodeWord) :
    cwOf i v w &&& 0x3F0#10 = cwOf i v (w &&& 0xF0#8) := by
  rw [show 0x3F0#10 = cwOf true true 0xF0#8 from rfl, cwOf_and]
  simp

/-- The high nibble is 0 exactly in a valid code (R52). -/
theorem highNibble_eq_zero_iff : ∀ w : CodeWord, w &&& 0xF0#8 = 0 ↔ w.toNat ≤ 15 := by
  decide

/-- The canonical word of DECc (R58). -/
theorem cwOf_dec_eq : ∀ c : Code, cwOf false true (c.setWidth 8) = 0x100#10 + c.setWidth 10 := by
  decide

/-- The valid code word with the code `c` is `c` with a zero high nibble (R51, R52). -/
theorem validCode_and_codeOf_iff (w : CodeWord) (c : Code) :
    w.toNat ≤ 15 ∧ codeOf w = c ↔ w = c.setWidth 8 := by
  simp only [codeOf, BitVec.toNat_eq, BitVec.toNat_setWidth]
  omega

/-- Of the 256 code words the first 16 are valid and the other 240 are not (R55). -/
theorem length_filter_invalidCode :
    ((List.range 256).filter fun w => decide (15 < (BitVec.ofNat 8 w).toNat)).length = 240 := by
  have hvalid : (List.range 16).filter (fun w => decide (15 < (BitVec.ofNat 8 w).toNat)) = [] := by
    decide
  have hinvalid : ((List.range 240).map (16 + ·)).filter
      (fun w => decide (15 < (BitVec.ofNat 8 w).toNat)) = (List.range 240).map (16 + ·) := by
    simp only [List.filter_eq_self, List.forall_mem_map, List.mem_range, decide_eq_true_eq,
      BitVec.toNat_ofNat]
    omega
  rw [show 256 = 16 + 240 from rfl, List.range_add, List.filter_append, hvalid, hinvalid,
    List.nil_append, List.length_map, List.length_range]

/-! ### The sixteen decode operations -/

/-- An instruction that is none of the sixteen decode operations is not DECc. -/
theorem decInstr_ne {i : Instr} (h : i ∉ decInstrs) (c : Code) : decInstr c ≠ i := by
  rintro rfl
  exact h (List.getElem_mem _)

theorem decInstr_inj {c c' : Code} : decInstr c = decInstr c' ↔ c = c' := by
  have hnodup : decInstrs.Nodup := by decide
  exact hnodup.getElem_inj_iff.trans BitVec.toNat_inj

theorem idle_notMem_decInstrs : Instr.idle ∉ decInstrs := by decide

theorem init_notMem_decInstrs : Instr.init ∉ decInstrs := by decide

theorem initdec_notMem_decInstrs (w : CodeWord) : Instr.initdec w ∉ decInstrs := by
  simp [decInstrs]

/-! ### The decoder by fields, in one equation -/

/-- R54, the six rows. -/
theorem decode_cwOf (i v : Bool) (w : CodeWord) :
    decode (cwOf i v w) =
      if v = true then
        if w.toNat ≤ 15 then .ok (if i = true then .initdec w else decInstr (codeOf w))
        else .error (if i = true then .initInvalidCode w else .invalidCode w)
      else .ok (if i = true then .init else .idle) := by
  cases v with
  | false =>
    cases i with
    | false => exact decode_idle w
    | true => exact decode_init w
  | true =>
    by_cases hw : w.toNat ≤ 15
    · cases i with
      | false => simpa [hw] using decode_dec w hw
      | true => simpa [hw] using decode_initdec w hw
    · cases i with
      | false => simpa [hw] using decode_invalidCode w (Nat.lt_of_not_le hw)
      | true => simpa [hw] using decode_initInvalidCode w (Nat.lt_of_not_le hw)

/-- The fields a word must have for the decoder to answer `instr`. -/
theorem decode_cwOf_eq_ok_iff (i v : Bool) (w : CodeWord) (instr : Instr) :
    decode (cwOf i v w) = .ok instr ↔
      (i = false ∧ v = false ∧ .idle = instr) ∨ (i = true ∧ v = false ∧ .init = instr) ∨
      (i = false ∧ v = true ∧ w.toNat ≤ 15 ∧ decInstr (codeOf w) = instr) ∨
      (i = true ∧ v = true ∧ w.toNat ≤ 15 ∧ .initdec w = instr) := by
  cases v with
  | false => cases i <;> simp [decode_cwOf]
  | true =>
    by_cases hw : w.toNat ≤ 15
    · cases i <;> simp [decode_cwOf, hw]
    · simp [decode_cwOf, hw]

/-- R55: the decoder refuses a word exactly if it presents an invalid code. -/
theorem decode_eq_error_iff (cw : CommandWord) :
    (∃ r, decode cw = .error r) ↔ illegalWord cw := by
  rw [← cwOf_fields cw, decode_cwOf]
  cases cwCodeValid cw with
  | false => simp [illegalWord]
  | true =>
    rcases Nat.lt_or_ge 15 (cwCode cw).toNat with hw | hw
    · simp [illegalWord, hw, Nat.not_le.mpr hw]
    · simp [illegalWord, hw, Nat.not_lt.mpr hw]

/-! ### The rows as match and mask -/

theorem decode_eq_idle_iff (cw : CommandWord) :
    decode cw = .ok .idle ↔ cw &&& 0x300#10 = 0x000#10 := by
  rw [← cwOf_fields cw, decode_cwOf_eq_ok_iff, cwOf_and_0x300,
    show 0x000#10 = cwOf false false 0 from rfl, cwOf_inj]
  simp [decInstr_ne idle_notMem_decInstrs]

theorem decode_eq_init_iff (cw : CommandWord) :
    decode cw = .ok .init ↔ cw &&& 0x300#10 = 0x200#10 := by
  rw [← cwOf_fields cw, decode_cwOf_eq_ok_iff, cwOf_and_0x300,
    show 0x200#10 = cwOf true false 0 from rfl, cwOf_inj]
  simp [decInstr_ne init_notMem_decInstrs]

theorem decode_eq_decInstr_iff (cw : CommandWord) (c : Code) :
    decode cw = .ok (decInstr c) ↔ cw &&& 0x3FF#10 = 0x100#10 + c.setWidth 10 := by
  rw [show cw &&& 0x3FF#10 = cw from BitVec.and_allOnes, ← cwOf_fields cw, decode_cwOf_eq_ok_iff,
    ← cwOf_dec_eq, cwOf_inj, decInstr_inj, validCode_and_codeOf_iff]
  simp [(decInstr_ne idle_notMem_decInstrs c).symm, (decInstr_ne init_notMem_decInstrs c).symm,
    (decInstr_ne (initdec_notMem_decInstrs _) c).symm]

theorem decode_eq_initdec_iff (cw : CommandWord) :
    (∃ w : CodeWord, decode cw = .ok (.initdec w)) ↔ cw &&& 0x3F0#10 = 0x300#10 := by
  rw [← cwOf_fields cw, cwOf_and_0x3F0, show 0x300#10 = cwOf true true 0 from rfl, cwOf_inj,
    highNibble_eq_zero_iff]
  simp [decode_cwOf_eq_ok_iff, decInstr_ne (initdec_notMem_decInstrs _)]

/-! ### The effect of the command words of R54 -/

theorem effect_decEvent (w : CodeWord) (s : State) :
    effect (decEvent w) s = decodeCommand w s := by
  simp [effect, decEvent]

theorem effect_initdecEvent (w : CodeWord) (s : State) :
    effect (initdecEvent w) s = initDecode w s := by
  simp [effect, initdecEvent]

/-- INITDEC with an invalid code ends as a fresh state with the exception taken (R54, R67). -/
theorem initDecode_invalid {w : CodeWord} (hw : 15 < w.toNat) (s : State) :
    initDecode w s = raiseInvalidCode w (freshStart s) :=
  decodeCommand_invalid rfl hw

/-- Without a code only `init` counts (R56). -/
theorem effect_without_code (i : Bool) (w : CodeWord) (s : State) :
    effect (.command (cwOf i false w)) s = if i = true then freshStart s else s.quiet := by
  simp [effect]

/-- An illegal word raises InvalidCode, unless the engine stays frozen: ERR is 1 after it (R55). -/
theorem effect_err_of_illegalWord {cw : CommandWord} (h : illegalWord cw) (s : State) :
    (effect (.command cw) s).err = true := by
  rw [effect_err_iff]
  by_cases hraise : cwInit cw = true ∨ s.err = false
  · exact .inl ⟨h, hraise⟩
  · exact .inr (by simpa [startsDecode, and_comm] using hraise)

/-- An illegal word completes no decode step: it is not masked to a valid code (R55). -/
theorem not_completes_of_illegalWord {cw : CommandWord} (h : illegalWord cw) (s : State) :
    ¬ completes s (.command cw) :=
  fun ⟨_, hvalid, _⟩ => Nat.not_le.mpr h.2 hvalid

/-! ### The statements -/

/-- Settles O4: the six rows by fields, the masks as tests on the fields, and the effects of the two
illegal rows. -/
theorem opcodeMapByFields : Obligations.OpcodeMapByFields := by
  refine ⟨cwOf_fields, decode_idle, decode_init, decode_dec, decode_initdec, decode_invalidCode,
    decode_initInvalidCode, decode_eq_idle_iff, decode_eq_init_iff, decode_eq_decInstr_iff,
    decode_eq_initdec_iff, fun w s hw => ⟨fun he => ?_, fun he => ?_, ?_⟩⟩
  · rw [step_present, effect_decEvent, decodeCommand_invalid he hw, raiseInvalidCode_eq]
  · rw [step_present, effect_decEvent, decodeCommand_frozen w he]
    rfl
  · rw [step_present, effect_initdecEvent, initDecode_invalid hw, raiseInvalidCode_eq,
      freshStart_eq]

/-- Settles O5: the decoder refuses exactly the words with an invalid code, which are counted by their
code words, and the effect of one leaves ERR = 1 and completes no decode step. -/
theorem illegalWordsAreRefusedAndReported : Obligations.IllegalWordsAreRefusedAndReported := by
  refine ⟨decode_eq_error_iff, fun init => ?_, fun cw s h => ?_⟩
  · simp only [cwCode_cwOf]
    exact length_filter_invalidCode
  · exact ⟨effect (.command cw) s, step_present _ s, effect_err_of_illegalWord h s,
      (effect_samples_of_not_completes (not_completes_of_illegalWord h s)).1⟩

/-- Settles O6: the effect of a word without a code names no low byte, and it raises nothing. -/
theorem lowByteIgnoredWithoutCode : Obligations.LowByteIgnoredWithoutCode := by
  intro init w w' s
  refine ⟨?_, effect (.command (cwOf init false w)) s, step_present _ s, fun herr => ?_⟩
  · rw [step_present, step_present, effect_without_code, effect_without_code]
  · have hraise : ¬ raises s (.command (cwOf init false w)) := by simp [raises, illegalWord]
    exact ((effect_err_iff _ s).mp herr).resolve_left hraise |>.1

end Sys2Proof.Machine
end

section
/-! PROOFS. The family 40_control.md: IDLE commands leave no trace in a run, INIT, and INITDEC as INIT
with the decode command after it. -/

namespace Sys2Proof.Machine

/-! ### IDLE in a run -/

/-- R65: an IDLE command, canonical or not, only lowers `sample_valid`. -/
theorem effect_of_isIdle {e : Event} (h : isIdle e = true) (s : State) : effect e s = s.quiet := by
  cases e with
  | reset port => exact absurd h Bool.false_ne_true
  | command cw =>
    obtain ⟨hinit, hvalid⟩ : cwInit cw = false ∧ cwCodeValid cw = false := by
      simpa [isIdle] using h
    simp [effect, hinit, hvalid]

section
variable {s t : State} (h : SameEngine s t)
include h

theorem SameEngine.quiet_left : SameEngine s.quiet t := h

theorem SameEngine.with_no_inputs :
    SameEngine { s with inputs := [] } { t with inputs := [] } := h

/-- What an event does to the registers and the samples depends on nothing else. -/
theorem SameEngine.effect_congr (e : Event) : SameEngine (effect e s) (effect e t) := by
  obtain ⟨hT, hp, hi, he, hs⟩ := h
  have helem : SameElements s t := ⟨hT, hp, hi, he⟩
  obtain ⟨hpred, hidx, herr, -, new, hnew, hnew'⟩ := helem.effect_endAlike e
  refine ⟨?_, hpred, hidx, herr, ?_⟩
  · rw [effect_table, effect_table, hT]
  · rw [hnew, hnew', hs]

end

/-- Dropping the IDLE commands of a sequence keeps the registers and the samples at its end. -/
theorem SameEngine.effects_filter_isIdle (es : List Event) {s t : State} (h : SameEngine s t) :
    SameEngine (effects es s) (effects (es.filter fun e => !isIdle e) t) := by
  induction es generalizing s t with
  | nil => exact h
  | cons e es ih =>
    cases hidle : isIdle e with
    | true =>
      rw [List.filter_cons_of_neg (by simp [hidle]), effects_cons, effect_of_isIdle hidle]
      exact ih h.quiet_left
    | false =>
      rw [List.filter_cons_of_pos (by simp [hidle]), effects_cons, effects_cons]
      exact ih (h.effect_congr e)

/-! ### INIT -/

theorem effect_initEvent (s : State) : effect initEvent s = freshStart s := rfl

theorem freshStart_idempotent (s : State) : freshStart (freshStart s) = freshStart s := rfl

/-- R66: on a fresh state INIT leaves every register as it is. -/
theorem freshStart_of_fresh {s : State} (hp : s.pred = 0) (hi : s.idx = 0) (he : s.err = false) :
    freshStart s = s.quiet := by
  ext1 <;> simp [hp, hi, he]

/-! ### INITDEC -/

/-- R58: the canonical word of INITDEC. -/
theorem cwOf_initdec_eq : ∀ w : CodeWord, cwOf true true w = 0x300#10 + w.setWidth 10 := by
  decide

/-- R67: INITDEC is INIT, then the decode command with the same code word. -/
theorem effect_initdecEvent_eq_effects (w : CodeWord) (s : State) :
    effect (initdecEvent w) s = effects [initEvent, decEvent w] s := by
  rw [effects_cons, effects_cons, effects_nil, effect_initEvent, effect_decEvent,
    effect_initdecEvent]
  rfl

/-- R67: INITDEC of a valid code is the decode step from PRED = 0 and the step 7 at index 0. -/
theorem initDecode_valid {w : CodeWord} (hw : w.toNat ≤ 15) (s : State) :
    initDecode w s =
      completed (clampPredictor (updatedPredictor 0 (difference 7 (codeOf w)) (codeOf w)))
        (clampIndex (updatedIndex 0 (codeOf w))) { s with err := false } := by
  rw [initDecode, decodeCommand_valid (freshStart_err s) hw, decStep_eq, freshStart_table,
    freshStart_pred, freshStart_idx, stepRead_zero]
  rfl

/-- The rows of R67's table are the decode steps of valid codes from the fresh state. -/
theorem initdecRows_spec : ∀ row ∈ initdecRows,
    row.1.toNat ≤ 15 ∧ difference 7 (codeOf row.1) = row.2.1 ∧
    clampPredictor (updatedPredictor 0 (difference 7 (codeOf row.1)) (codeOf row.1)) = row.2.2.1 ∧
    clampIndex (updatedIndex 0 (codeOf row.1)) = row.2.2.2 := by
  decide

/-- R67's table has a row for every valid code. -/
theorem exists_initdecRow : ∀ w : CodeWord, w.toNat ≤ 15 → ∃ row ∈ initdecRows, row.1 = w := by
  decide

/-! ### The statements -/

/-- Settles O14: an IDLE command only lowers `sample_valid`, which no later effect reads. -/
theorem idleChangesNothing : Obligations.IdleChangesNothing := by
  refine ⟨⟨rfl, decode_idle⟩, fun _ => rfl, fun es s => ?_⟩
  have hsame : SameEngine s s := ⟨rfl, rfl, rfl, rfl, rfl⟩
  exact ⟨_, _, play_eq _ s, play_eq _ s, (hsame.effects_filter_isIdle es).with_no_inputs⟩

/-- Settles O16: INITDEC w runs as the two commands, its table is the decode step from the fresh state
row by row, and an invalid code takes the exception there. -/
theorem initdecIsInitThenDecode : Obligations.InitdecIsInitThenDecode := by
  refine ⟨fun w s => ?_, fun w hw => ⟨?_, exists_initdecRow w hw⟩, fun row hrow => ?_,
    fun w s hw => ?_⟩
  · rw [play_eq, play_eq, effects_cons, effects_nil, effect_initdecEvent_eq_effects]
  · rw [← cwOf_initdec_eq]
    exact decode_initdec w hw
  · obtain ⟨hvalid, hdiff, hpred, hidx⟩ := initdecRows_spec row hrow
    refine ⟨hdiff, fun s => ?_⟩
    rw [← hpred, ← hidx, ← initDecode_valid hvalid]
    rfl
  · exact congrArg Host.Outcome.next (initDecode_invalid hw s)

/-- Settles O15: INIT is the fresh start, which is idempotent and fixes a fresh state. -/
theorem initMakesTheFreshState : Obligations.InitMakesTheFreshState := by
  refine ⟨⟨rfl, decode_init⟩, fun _ => rfl, fun s => ?_, fun s hp hi he => ?_⟩
  · simp only [play_eq, effects_cons, effects_nil, effect_initEvent, freshStart_idempotent]
  · exact congrArg Host.Outcome.next (freshStart_of_fresh hp hi he)

end Sys2Proof.Machine
end

section
/-! PROOFS. The family 41_decode_step.md: the decode step as the pure function Step, the rule of
DECc for every code c at once, and the admission of a decode command. -/

namespace Sys2Proof.Machine

open Sys2Proof.Config

/-! ### A clamp of which one bound can act -/

theorem clamp_eq_max {v hi : Int} (lo : Int) (h : v ≤ hi) : clamp v lo hi = max v lo := by
  unfold clamp
  split
  · omega
  · rw [if_neg (by omega)]
    omega

theorem clamp_eq_min {v lo : Int} (hi : Int) (h : lo ≤ v) : clamp v lo hi = min v hi := by
  unfold clamp
  rw [if_neg (by omega)]
  split <;> omega

/-- A rising predictor meets only the upper bound, a falling one only the lower (R84 to R99). -/
theorem clampPredictor_updatedPredictor (p : Sample) (diff : Nat) (c : Code) :
    clampPredictor (updatedPredictor p.toInt diff c) =
      if signBit c = true then max (p.toInt - diff) (-32768) else min (p.toInt + diff) 32767 := by
  have hlo : -32768 ≤ p.toInt := BitVec.le_toInt p
  have hhi : p.toInt < 32768 := BitVec.toInt_lt
  simp only [updatedPredictor]
  split
  · exact clamp_eq_max _ (show p.toInt - diff ≤ 32767 by omega)
  · exact clamp_eq_min _ (show -32768 ≤ p.toInt + diff by omega)

/-- An index moved down meets only the lower bound, one moved up only the upper (R84 to R99). -/
theorem clampIndex_updatedIndex (i : StepIndex) (c : Code) :
    ((clampIndex (updatedIndex i c)).val : Int) =
      if adjRead c < 0 then max ((i.val : Int) + adjRead c) 0
      else min ((i.val : Int) + adjRead c) 88 := by
  have hi := i.isLt
  rw [clampIndex_val, updatedIndex]
  split
  · exact clamp_eq_max _ (by omega)
  · exact clamp_eq_min _ (by omega)

/-! ### The decode step and the pure function Step -/

/-- A term that a bit gates (R53). -/
theorem gated_add (b : Bool) (d t : Nat) :
    (if b = true then d + t else d) = d + bitValue b * t := by
  cases b <;> simp [bitValue]

/-- R72: each magnitude bit gates one truncated term. -/
theorem difference_eq (step : Nat) (c : Code) :
    difference step c = step / 8 + bitValue (c.getLsbD 2) * step
      + bitValue (c.getLsbD 1) * (step / 2) + bitValue (c.getLsbD 0) * (step / 4) := by
  simp only [difference, gated_add]
  rfl

/-- R82 in the model's own operations: Step is the clamped predictor and the clamped index. -/
theorem pureStep_eq (T : StepTable) (p : Int) (i : StepIndex) (c : Code) :
    pureStep T p i c =
      (clampPredictor (updatedPredictor p (difference (stepRead T i) c) c),
        clampIndex (updatedIndex i c),
        clampPredictor (updatedPredictor p (difference (stepRead T i) c) c)) := by
  rw [difference_eq, updatedPredictor, apply_ite clampPredictor]
  rfl

/-- R78: a decode step writes the two registers, emits the new predictor, and does nothing else. -/
theorem decStep_eq_completed (c : Code) (s : State) :
    decStep c s =
      completed
        (clampPredictor (updatedPredictor s.pred.toInt (difference (stepRead s.table s.idx) c) c))
        (clampIndex (updatedIndex s.idx c)) s :=
  decStep_eq c s

/-! ### The rule of DECc -/

theorem encode_decInstr : ∀ c : Code, encode (decInstr c) = 0x100#10 + c.setWidth 10 := by
  decide

theorem decode_decInstr (c : Code) : decode (0x100#10 + c.setWidth 10) = .ok (decInstr c) :=
  (decode_eq_decInstr_iff _ c).mpr BitVec.and_allOnes

/-- Every code is the code of a valid code word (R51, R52). -/
theorem setWidth_isValidCode (c : Code) :
    (c.setWidth 8).toNat ≤ 15 ∧ codeOf (c.setWidth 8) = c :=
  (validCode_and_codeOf_iff (c.setWidth 8) c).mpr rfl

/-- DECc is the decode command with the code word c. -/
theorem exec_decInstr_eq (c : Code) (s : State) :
    exec (decInstr c) s = .next (decodeCommand (c.setWidth 8) s) := by
  obtain ⟨hvalid, hcode⟩ := setWidth_isValidCode c
  have h := exec_decInstr hvalid s
  rwa [hcode] at h

theorem exec_decInstr_not_frozen (c : Code) {s : State} (he : s.err = false) :
    exec (decInstr c) s = .next (decStep c s) := by
  obtain ⟨hvalid, hcode⟩ := setWidth_isValidCode c
  rw [exec_decInstr_eq, decodeCommand_valid he hvalid, hcode]

theorem exec_decInstr_frozen (c : Code) {s : State} (he : s.err = true) :
    exec (decInstr c) s = .next s.quiet := by
  rw [exec_decInstr_eq, decodeCommand_frozen _ he]

/-- R84 to R99 as one rule: DECc has the word 0x100 + c and moves the predictor by the difference of
c, in the direction of its sign bit, and the index by its adjustment. -/
theorem decRule_decInstr (c : Code) :
    DecRule (decInstr c) (0x100#10 + c.setWidth 10) (fun step => difference step c) (signBit c)
      (adjRead c) := by
  refine ⟨decode_decInstr c, encode_decInstr c, fun s he => ?_, fun s => exec_decInstr_frozen c⟩
  refine ⟨_, _, ?_, toInt_ofInt_clampPredictor _, rfl, clampPredictor_updatedPredictor s.pred _ c,
    clampIndex_val _, clampIndex_updatedIndex s.idx c⟩
  rw [exec_decInstr_not_frozen c he, decStep_eq_completed]
  rfl

/-! ### The statements -/

/-- Settles O18: the rule of DECc at the codes 0 to 7, whose word, terms, sign and adjustment compute
to the ones stated. -/
theorem addingCodesDecode : Obligations.AddingCodesDecode :=
  ⟨decRule_decInstr 0, decRule_decInstr 1, decRule_decInstr 2, decRule_decInstr 3,
    decRule_decInstr 4, decRule_decInstr 5, decRule_decInstr 6, decRule_decInstr 7⟩

/-- Settles O19: the rule of DECc at the codes 8 to 15, whose word, terms, sign and adjustment compute
to the ones stated. -/
theorem subtractingCodesDecode : Obligations.SubtractingCodesDecode :=
  ⟨decRule_decInstr 8, decRule_decInstr 9, decRule_decInstr 10, decRule_decInstr 11,
    decRule_decInstr 12, decRule_decInstr 13, decRule_decInstr 14, decRule_decInstr 15⟩

/-- Settles O21: Step is the clamped update that the decode step stores, and storing it loses
nothing. -/
theorem decStepIsThePureStep : Obligations.DecStepIsThePureStep := by
  intro c s
  simp only [pureStep_eq, true_and]
  obtain ⟨hlo, hhi⟩ := clampPredictor_bounds
    (updatedPredictor s.pred.toInt (difference (stepRead s.table s.idx) c) c)
  exact ⟨decStep_eq_completed c s, toInt_ofInt_clampPredictor _, List.getLast?_concat, hlo, hhi,
    Nat.le_of_lt_succ (clampIndex (updatedIndex s.idx c)).isLt⟩

/-- Settles O20, by the three cases of the decode command. -/
theorem decodeCommandAdmission : Obligations.DecodeCommandAdmission := by
  intro w s
  simp only [step_present, effect_decEvent]
  refine ⟨fun he => ?_, fun he hw => ?_, fun he hw => ?_⟩
  · rw [decodeCommand_frozen w he]
    rfl
  · rw [decodeCommand_invalid he hw, raiseInvalidCode_eq]
  · rw [decodeCommand_valid he hw]

end Sys2Proof.Machine
end

section
/-! PROOFS. The family 42_frame_decode.md: the whole decode as a run of decode commands, what valid
codes, an invalid code and a frozen engine make of it, the codes of packed bytes, and the states
that a run reaches. -/

namespace Sys2Proof.Machine

open Sys2Proof.Config

/-! ### CHUNK and FRAME as sequences of decode commands -/

@[simp] theorem effects_chunk_nil (s : State) : effects (chunk []) s = s := rfl

theorem effects_chunk_cons (w : CodeWord) (ws : List CodeWord) (s : State) :
    effects (chunk (w :: ws)) s = effects (chunk ws) (decodeCommand w s) := by
  rw [← effect_decEvent]
  rfl

theorem effects_chunk_append (ws ws' : List CodeWord) (s : State) :
    effects (chunk (ws ++ ws')) s = effects (chunk ws') (effects (chunk ws) s) := by
  rw [chunk, List.map_append, effects_append]
  rfl

/-- R100: the decode is the codes run from the fresh state. -/
theorem effects_frame (ws : List CodeWord) (s : State) :
    effects (frame ws) s = effects (chunk ws) (freshStart s) := rfl

theorem not_startsDecode_of_mem_chunk {ws : List CodeWord} {e : Event} (h : e ∈ chunk ws) :
    ¬ startsDecode e := by
  obtain ⟨w, -, rfl⟩ := List.mem_map.mp h
  simp [decEvent, startsDecode]

/-! ### A frozen engine -/

/-- R114: on a frozen engine an event that starts no decode only lowers `sample_valid`. -/
theorem effect_of_frozen {e : Event} {s : State} (he : s.err = true) (hstart : ¬ startsDecode e) :
    effect e s = s.quiet := by
  cases kind e s with
  | fresh starts _ _ _ => exact absurd starts hstart
  | quiet _ _ _ eq => exact eq
  | step _ _ _ _ notFrozen _ _ _ => simp [he] at notFrozen
  | startStep _ _ starts _ _ _ => exact absurd starts hstart
  | raise _ _ notFrozen _ _ _ => simp [he] at notFrozen
  | startRaise _ starts _ _ _ => exact absurd starts hstart

/-- R114: a frozen engine keeps its registers, flag and samples until a decode starts. -/
theorem sameEngine_effects_of_frozen {es : List Event} {s : State} (he : s.err = true)
    (hstart : ∀ e ∈ es, ¬ startsDecode e) : SameEngine (effects es s) s := by
  induction es generalizing s with
  | nil => exact ⟨rfl, rfl, rfl, rfl, rfl⟩
  | cons e es ih =>
    obtain ⟨hhead, htail⟩ := List.forall_mem_cons.mp hstart
    rw [effects_cons, effect_of_frozen he hhead]
    exact ih (s := s.quiet) he htail

/-- R104: an invalid code on an engine that is not frozen leaves it frozen, with the registers and
the samples of before, whatever codes follow. -/
theorem sameEngine_effects_chunk_invalid {w : CodeWord} {s : State} (he : s.err = false)
    (hw : 15 < w.toNat) (ws : List CodeWord) :
    SameEngine (effects (chunk (w :: ws)) s) { s with err := true } := by
  rw [effects_chunk_cons, decodeCommand_invalid he hw]
  exact sameEngine_effects_of_frozen rfl fun _ => not_startsDecode_of_mem_chunk

/-! ### Valid codes -/

/-- R101: valid codes run on an engine that is not frozen leave it so and emit one sample each. -/
theorem effects_chunk_valid {ws : List CodeWord} {s : State} (he : s.err = false)
    (hws : ∀ w ∈ ws, w.toNat ≤ 15) :
    (effects (chunk ws) s).err = false ∧
    ∃ new : List Sample, (effects (chunk ws) s).samples = s.samples ++ new ∧
      new.length = ws.length := by
  induction ws generalizing s with
  | nil => exact ⟨he, [], by simp⟩
  | cons w ws ih =>
    obtain ⟨hw, htail⟩ := List.forall_mem_cons.mp hws
    rw [effects_chunk_cons, decodeCommand_valid he hw]
    obtain ⟨herr, new, hnew, hlen⟩ := ih (s := decStep (codeOf w) s) he htail
    exact ⟨herr, (decStep (codeOf w) s).pred :: new, by simp [hnew], by simp [hlen]⟩

/-- R101: the decode of the first k of valid codes emits the first k samples. -/
theorem samples_effects_frame_take {ws : List CodeWord} (hws : ∀ w ∈ ws, w.toNat ≤ 15) {s : State}
    {new : List Sample} (hnew : (effects (frame ws) s).samples = s.samples ++ new) {k : Nat}
    (hk : k ≤ ws.length) :
    (effects (frame (ws.take k)) s).samples = s.samples ++ new.take k := by
  obtain ⟨-, first, hfirst, hlen⟩ := effects_chunk_valid (ws := ws.take k) (freshStart_err s)
    fun w hw => hws w (List.mem_of_mem_take hw)
  have hprefix : s.samples ++ first <+: s.samples ++ new := by
    rw [← hnew, effects_frame, ← List.take_append_drop k ws, effects_chunk_append]
    exact hfirst ▸ samples_prefix_effects _ _
  have hfirst_eq : first = new.take first.length :=
    List.prefix_iff_eq_take.mp ((List.prefix_append_right_inj _).mp hprefix)
  rw [List.length_take, Nat.min_eq_left hk] at hlen
  rw [effects_frame, hfirst, freshStart_samples, ← hlen, ← hfirst_eq]

/-! ### The result of a decode as a fold of Step -/

theorem decodeResult_of_err {s t : State} (h : t.err = true) :
    decodeResult s t = .invalidCode := if_pos h

theorem decodeResult_self {s : State} (h : s.err = false) : decodeResult s s = .ok [] := by
  simp [decodeResult, h]

/-- The result read off from before a sample is that from after it with the sample in front. -/
theorem decodeResult_eq_cons {s s₁ t : State} {v : Sample} (hv : s₁.samples = s.samples ++ [v])
    (ht : s₁.samples <+: t.samples) : decodeResult s t = (decodeResult s₁ t).cons v.toInt := by
  obtain ⟨rest, hrest⟩ := ht
  cases he : t.err with
  | true => rw [decodeResult_of_err he, decodeResult_of_err he]; rfl
  | false => simp [decodeResult, he, ← hrest, hv, DecodeResult.cons]

/-- R82: Step at the registers of a state gives the registers and the sample after the decode
step. -/
theorem pureStep_eq_decStep (c : Code) (s : State) :
    pureStep s.table s.pred.toInt s.idx c =
      ((decStep c s).pred.toInt, (decStep c s).idx, (decStep c s).pred.toInt) := by
  rw [pureStep_eq, decStep_eq, toInt_ofInt_clampPredictor]

/-- R100 from any registers of an engine that is not frozen. -/
theorem decodeResult_effects_chunk {ws : List CodeWord} {s : State} (he : s.err = false) :
    decodeResult s (effects (chunk ws) s) = pureDecodeFrom s.table s.pred.toInt s.idx ws := by
  induction ws generalizing s with
  | nil => exact decodeResult_self he
  | cons w ws ih =>
    rcases Nat.lt_or_ge 15 w.toNat with hw | hw
    · obtain ⟨-, -, -, herr, -⟩ := sameEngine_effects_chunk_invalid he hw ws
      rw [decodeResult_of_err herr, pureDecodeFrom, if_pos hw]
    · have hcons := decodeResult_eq_cons (decStep_samples (codeOf w) s)
        (samples_prefix_effects (chunk ws) (decStep (codeOf w) s))
      rw [effects_chunk_cons, decodeCommand_valid he hw, hcons, ih (s := decStep (codeOf w) s) he,
        pureDecodeFrom, if_neg (Nat.not_lt.mpr hw), pureStep_eq_decStep, decStep_table]

/-! ### Two runs of one engine -/

/-- Runs that end alike stay so when both go on alike. -/
theorem EndAlike.trans {s s' t t' u u' : State} (h : EndAlike s s' t t') (h' : EndAlike t t' u u') :
    EndAlike s s' u u' := by
  obtain ⟨-, -, -, -, new, hs, hs'⟩ := h
  obtain ⟨hp, hi, he, hv, more, ht, ht'⟩ := h'
  exact ⟨hp, hi, he, hv, new ++ more, by simp [ht, hs], by simp [ht', hs']⟩

/-- R18 for a run: from the same three elements the same events end alike. -/
theorem SameElements.effects_endAlike (es : List Event) {s s' : State} (h : SameElements s s')
    (hv : s.sampleValid = s'.sampleValid) : EndAlike s s' (effects es s) (effects es s') := by
  induction es generalizing s s' with
  | nil => exact .of_no_sample h.pred h.idx h.err hv rfl rfl
  | cons e es ih =>
    have hhead := h.effect_endAlike e
    have ⟨hp, hi, he, hvalid, _⟩ := hhead
    have hT : (effect e s).table = (effect e s').table := by simp [h.table]
    exact hhead.trans (ih ⟨hT, hp, hi, he⟩ hvalid)

/-! ### The codes of packed bytes -/

/-- R106: the two codes of a byte are its value modulo 16 and divided by 16. -/
theorem splitByte_eq (b : BitVec 8) :
    splitByte b = [BitVec.ofNat 8 (b.toNat % 16), BitVec.ofNat 8 (b.toNat / 16)] := by
  have hb := b.isLt
  have hmask (n : Nat) : n &&& 15 = n % 16 := Nat.and_two_pow_sub_one_eq_mod n 4
  simp only [splitByte, List.cons.injEq, and_true, BitVec.toNat_eq, BitVec.toNat_and,
    BitVec.toNat_ofNat, BitVec.toNat_ushiftRight, Nat.shiftRight_eq_div_pow, hmask]
  omega

theorem splitByte_valid {b : BitVec 8} {w : CodeWord} (h : w ∈ splitByte b) : w.toNat ≤ 15 := by
  have hb := b.isLt
  rw [splitByte_eq, List.mem_pair] at h
  rcases h with rfl | rfl <;> rw [BitVec.toNat_ofNat] <;> omega

theorem splitBytes_valid {bytes : List (BitVec 8)} {w : CodeWord} (h : w ∈ splitBytes bytes) :
    w.toNat ≤ 15 := by
  obtain ⟨b, -, hw⟩ := List.mem_flatMap.mp h
  exact splitByte_valid hw

theorem length_splitBytes (bytes : List (BitVec 8)) :
    (splitBytes bytes).length = 2 * bytes.length := by
  induction bytes with
  | nil => rfl
  | cons b bytes ih =>
    have hbyte : (splitByte b).length = 2 := rfl
    rw [splitBytes, List.flatMap_cons, List.length_append, ← splitBytes, ih, hbyte,
      List.length_cons]
    omega

/-- R59: FRAMEB is FRAME of the splitter's codes. -/
theorem frameb_eq (bytes : List (BitVec 8)) : frameb bytes = frame (splitBytes bytes) := by
  rw [frame, chunk, splitBytes, List.map_flatMap]
  rfl

/-! ### The registers after a decode step -/

/-- The predictor after a decode step, as the rules R84 to R99 give it. -/
theorem decStep_pred_toInt (c : Code) (s : State) :
    (decStep c s).pred.toInt =
      if signBit c = true then max (s.pred.toInt - difference (stepRead s.table s.idx) c) (-32768)
      else min (s.pred.toInt + difference (stepRead s.table s.idx) c) 32767 := by
  rw [decStep_eq, toInt_ofInt_clampPredictor, clampPredictor_updatedPredictor]

/-- The index after a decode step, as the rules R84 to R99 give it. -/
theorem decStep_idx_val (c : Code) (s : State) :
    ((decStep c s).idx.val : Int) =
      if adjRead c < 0 then max ((s.idx.val : Int) + adjRead c) 0
      else min ((s.idx.val : Int) + adjRead c) 88 :=
  clampIndex_updatedIndex s.idx c

/-- A code with magnitude bit 2 moves the predictor by the whole step at least (R72), which is not
0. -/
theorem one_le_difference (T : StepTable) (i : StepIndex) {c : Code} (h : c.getLsbD 2 = true) :
    1 ≤ difference (stepRead T i) c := by
  have hstep := (stepRead_bounds T i).1
  rw [difference_eq, h]
  simp only [bitValue, if_true]
  omega

/-! ### Reachable states -/

/-- A state that some run from RESET ends in, with the engine not frozen. -/
structure ReachedUnfrozen (T : StepTable) (t : State) : Prop where
  reachable : Reachable T t
  notFrozen : t.err = false

theorem reachedUnfrozen_reset (T : StepTable) : ReachedUnfrozen T (State.resetWith T) :=
  ⟨⟨[], rfl⟩, rfl⟩

/-- A run that left the engine unfrozen can go on by a decode step with any code. -/
theorem ReachedUnfrozen.next {T : StepTable} {t : State} (h : ReachedUnfrozen T t) (c : Code) :
    ReachedUnfrozen T (decStep c t) := by
  obtain ⟨⟨es, hplay⟩, he⟩ := h
  rw [play_eq] at hplay
  obtain rfl := Host.Outcome.next.inj hplay
  obtain ⟨hvalid, hcode⟩ := setWidth_isValidCode c
  refine ⟨⟨es ++ [decEvent (c.setWidth 8)], ?_⟩, he⟩
  rw [← play_of_effects, play_eq, effects_cons, effects_nil, effect_decEvent,
    decodeCommand_valid he hvalid, hcode]
  rfl

/-- Steps with one code that bring a quantity down, as long as it is not 0, bring it to 0. -/
theorem ReachedUnfrozen.exists_of_descent {T : StepTable} {t : State} (h : ReachedUnfrozen T t)
    (c : Code) (m : State → Nat) (hdesc : ∀ u, m u ≠ 0 → m (decStep c u) < m u) :
    ∃ u, ReachedUnfrozen T u ∧ m u = 0 := by
  induction hn : m t using Nat.strong_induction_on generalizing t with
  | _ n ih =>
    by_cases hzero : m t = 0
    · exact ⟨t, h, hzero⟩
    · exact ih _ (hn ▸ hdesc t hzero) (h.next c) rfl

/-- Code 4 raises the predictor until it is at the upper bound. -/
theorem exists_reachable_predMax (T : StepTable) : ∃ t, Reachable T t ∧ t.pred.toInt = 32767 := by
  obtain ⟨t, ht, hzero⟩ := (reachedUnfrozen_reset T).exists_of_descent 4
    (fun t => (32767 - t.pred.toInt).toNat) fun t hpos => by
      have hup := decStep_pred_toInt 4 t
      have hdiff := one_le_difference t.table t.idx (c := 4) rfl
      rw [if_neg (by decide)] at hup
      omega
  have hle : t.pred.toInt < 32768 := BitVec.toInt_lt
  exact ⟨t, ht.reachable, by omega⟩

/-- Code 12 lowers the predictor until it is at the lower bound. -/
theorem exists_reachable_predMin (T : StepTable) : ∃ t, Reachable T t ∧ t.pred.toInt = -32768 := by
  obtain ⟨t, ht, hzero⟩ := (reachedUnfrozen_reset T).exists_of_descent 12
    (fun t => (t.pred.toInt + 32768).toNat) fun t hpos => by
      have hdown := decStep_pred_toInt 12 t
      have hdiff := one_le_difference t.table t.idx (c := 12) rfl
      rw [if_pos (by decide)] at hdown
      omega
  have hge : -32768 ≤ t.pred.toInt := BitVec.le_toInt t.pred
  exact ⟨t, ht.reachable, by omega⟩

/-- From one index the next is reached by code 4, two up, and code 0, one down; 88 by code 4
alone. -/
theorem exists_reachedUnfrozen_idx (T : StepTable) :
    ∀ k ≤ 88, ∃ t, ReachedUnfrozen T t ∧ t.idx.val = k := by
  intro k
  induction k with
  | zero => exact fun _ => ⟨_, reachedUnfrozen_reset T, rfl⟩
  | succ k ih =>
    intro hk
    obtain ⟨t, ht, hidx⟩ := ih (by omega)
    have hup := decStep_idx_val 4 t
    rw [show adjRead 4 = 2 from rfl, if_neg (by decide)] at hup
    by_cases hlast : k = 87
    · exact ⟨_, ht.next 4, by omega⟩
    · have hdown := decStep_idx_val 0 (decStep 4 t)
      rw [show adjRead 0 = -1 from rfl, if_pos (by decide)] at hdown
      exact ⟨_, (ht.next 4).next 0, by omega⟩

/-! ### The statements -/

/-- Settles O37: INIT makes the fresh state, and from there each valid code is one Step of the fold
and an invalid one is the error. -/
theorem frameIsTheFoldOfThePureStep : Obligations.FrameIsTheFoldOfThePureStep := fun codes s =>
  ⟨_, play_eq (frame codes) s, decodeResult_effects_chunk (s := freshStart s) rfl⟩

/-- Settles O38: each valid code emits one sample, and a shorter decode is how the run begins. -/
theorem samplesMatchCodesOneToOne : Obligations.SamplesMatchCodesOneToOne := by
  refine ⟨fun codes s hcodes => ?_, fun s => ?_⟩
  · obtain ⟨herr, new, hnew, hlen⟩ := effects_chunk_valid (freshStart_err s) hcodes
    exact ⟨_, new, play_eq (frame codes) s, herr, hnew, hlen, fun k hk =>
      ⟨_, play_eq (frame (codes.take k)) s, samples_effects_frame_take hcodes hnew hk⟩⟩
  · exact ⟨_, play_eq (frame []) s, rfl, rfl, decodeResult_self (s := freshStart s) rfl⟩

/-- Settles O40: the valid codes leave the engine unfrozen with one sample each, and the invalid
code freezes it as it is. -/
theorem invalidCodeAbortsTheDecode : Obligations.InvalidCodeAbortsTheDecode := by
  intro pre post bad s hpre hbad
  obtain ⟨herr, new, hnew, hlen⟩ := effects_chunk_valid (freshStart_err s) hpre
  obtain ⟨-, hp, hi, hfrozen, hs⟩ := sameEngine_effects_chunk_invalid herr hbad post
  rw [← effects_chunk_append, ← effects_frame] at hp hi hfrozen hs
  refine ⟨_, _, play_eq _ s, play_eq _ s, hfrozen, hs, ?_, hp, hi, decodeResult_of_err hfrozen⟩
  rw [hs, hnew, List.length_append, hlen, freshStart_samples]

/-- Settles O41: INIT gives both states the same three elements, from which all events end alike. -/
theorem decodeIsPure : Obligations.DecodeIsPure := by
  intro es s s' hT _
  obtain ⟨hp, hi, he, -, new, hnew, hnew'⟩ := (freshStart_sameElements hT).effects_endAlike es rfl
  exact ⟨_, _, new, play_eq (initEvent :: es) s, play_eq (initEvent :: es) s', hp, hi, he, hnew,
    hnew'⟩

/-- Settles O42: the splitter's codes are valid, so FRAMEB is a decode of valid codes. -/
theorem byteStreamNeverRaisesInvalidCode : Obligations.ByteStreamNeverRaisesInvalidCode := by
  refine ⟨fun b => ?_, fun bytes => ?_, fun bytes s => ?_⟩
  · rw [decb, splitByte_eq]
    rfl
  · exact ⟨length_splitBytes bytes, fun _ => splitBytes_valid, frameb_eq bytes⟩
  · obtain ⟨herr, new, hnew, hlen⟩ := effects_chunk_valid (freshStart_err s)
      fun _ => splitBytes_valid (bytes := bytes)
    rw [← effects_frame, ← frameb_eq] at herr hnew
    refine ⟨_, play_eq _ s, herr, ?_⟩
    rw [hnew, List.length_append, hlen, length_splitBytes, freshStart_samples]

/-- Settles O36: the range is that of the two types, and each end is reached by decode steps that
move towards it. -/
theorem reachableStatesInRangeAndEndsReached :
    Obligations.ReachableStatesInRangeAndEndsReached := by
  refine fun T => ⟨fun t _ => ?_, fun k => ?_, exists_reachable_predMax T,
    exists_reachable_predMin T⟩
  · exact ⟨BitVec.le_toInt t.pred, Int.le_of_lt_add_one BitVec.toInt_lt,
      Nat.le_of_lt_succ t.idx.isLt⟩
  · obtain ⟨t, ht, hidx⟩ := exists_reachedUnfrozen_idx T k (Nat.le_of_lt_succ k.isLt)
    exact ⟨t, ht.reachable, Fin.ext hidx⟩

end Sys2Proof.Machine
end

section
/-! PROOFS. The family 60_exceptions.md: the cause code, the entry into the frozen condition, what a
frozen engine ignores, and the restarts that end the condition. -/

namespace Sys2Proof.Machine

/-! ### The cause code -/

/-- R112: the cause code is "the value of ERR". -/
theorem causeCode_eq_toNat_err (s : State) : causeCode s = s.err.toNat := by
  cases he : s.err <;> simp [causeCode, he]

/-! ### The frozen condition -/

theorem SameEngine.symm {s t : State} (h : SameEngine s t) : SameEngine t s := by
  obtain ⟨hT, hp, hi, he, hs⟩ := h
  exact ⟨hT.symm, hp.symm, hi.symm, he.symm, hs.symm⟩

/-- R114: a frozen engine raises no new fault unless a decode starts. -/
theorem not_raises_of_frozen {e : Event} {s : State} (he : s.err = true)
    (hstart : ¬ startsDecode e) : ¬ raises s e := by
  cases e with
  | reset port => exact id
  | command cw =>
    rintro ⟨-, hinit | hnotFrozen⟩
    · exact hstart hinit
    · simp [he] at hnotFrozen

/-- R114: `sample_valid` is 0 after a run that starts no decode on a frozen engine: the engine is
still frozen before the last event, which lowers the pin. -/
theorem sampleValid_effects_of_frozen {es : List Event} {s : State} (he : s.err = true)
    (hstart : ∀ e ∈ es, ¬ startsDecode e) (hne : es ≠ []) :
    (effects es s).sampleValid = false := by
  obtain ⟨init, last, rfl⟩ := (List.eq_nil_or_concat' es).resolve_left hne
  obtain ⟨hinit, hlast⟩ := List.forall_mem_append.mp hstart
  obtain ⟨-, -, -, herr, -⟩ := sameEngine_effects_of_frozen he hinit
  rw [effects_append, effects_cons, effects_nil,
    effect_of_frozen (herr.trans he) (hlast last List.mem_cons_self), State.quiet_sampleValid]

/-! ### The statements -/

/-- Settles O31: the frozen engine keeps registers, flag and samples, and its last event lowers
`sample_valid`. -/
theorem frozenIgnoresEveryDecodeCommand : Obligations.FrozenIgnoresEveryDecodeCommand :=
  fun es s he hstart => ⟨_, play_eq es s, (sameEngine_effects_of_frozen he hstart).symm,
    sampleValid_effects_of_frozen he hstart⟩

/-- Settles O32: INIT and RESET are the fresh start, INITDEC is the decode command on it, and every
other event leaves the frozen engine as it is. -/
theorem onlyARestartEndsTheFrozenCondition : Obligations.OnlyARestartEndsTheFrozenCondition := by
  refine fun s he => ⟨fun w => ?_, fun port => ?_, fun w hw => ?_, fun w hw => ?_,
    fun e hstart => ⟨not_raises_of_frozen he hstart, ?_⟩⟩
  · refine ⟨freshStart s, ?_, rfl, rfl, rfl⟩
    rw [step_present, effect_without_code, if_pos rfl]
  · exact ⟨freshStart s, step_present (.reset port) s, rfl, rfl, rfl⟩
  · rw [step_present, effect_initdecEvent, initDecode, decodeCommand_valid (freshStart_err s) hw,
      freshStart_eq]
  · rw [step_present, effect_initdecEvent, initDecode_invalid hw, raiseInvalidCode_eq,
      freshStart_eq]
  · refine ⟨s.quiet, ?_, he, rfl, rfl⟩
    rw [step_present, effect_of_frozen he hstart]

/-- Settles O30: the step is the exception's entry, which names no code word, and the cause code is
ERR before and after it. -/
theorem invalidCodeEntry : Obligations.InvalidCodeEntry := by
  refine fun w s hw he => ⟨?_, ?_, rfl, rfl⟩
  · rw [step_present, effect_decEvent, decodeCommand_invalid he hw, raiseInvalidCode_eq]
  · rw [causeCode_eq_toNat_err, he, Bool.toNat_false]

end Sys2Proof.Machine
end

section
/-! PROOFS. The family 70_reset_and_hazards.md: the RESET event against INIT. -/

namespace Sys2Proof.Machine

/-! ### RESET -/

/-- R130: RESET is the fresh start, whatever word is on the port. -/
theorem effect_reset (port : CommandWord) (s : State) :
    effect (.reset port) s = freshStart s := rfl

/-- R130: RESET and INIT have one effect. -/
theorem effect_reset_eq_effect_initEvent (port : CommandWord) (s : State) :
    effect (.reset port) s = effect initEvent s := by
  rw [effect_reset, effect_initEvent]

/-- R130: RESET in place of INIT at the start of a run changes nothing in what follows. -/
theorem effects_reset_cons (port : CommandWord) (es : List Event) (s : State) :
    effects (.reset port :: es) s = effects (initEvent :: es) s := by
  rw [effects_cons, effects_cons, effect_reset_eq_effect_initEvent]

/-! ### The statement -/

/-- Settles O13: RESET is the fresh start, which is INIT's effect, so every run after the one is
the run after the other. -/
theorem resetIsInitAndIgnoresThePort : Obligations.ResetIsInitAndIgnoresThePort := by
  refine fun port s => ⟨?_, ?_, fun w => ?_⟩
  · rw [step_present, effect_reset, freshStart_eq]
  · rw [step_present, step_present, effect_reset_eq_effect_initEvent]
  · rw [play_eq, play_eq, effects_reset_cons]

end Sys2Proof.Machine
end

section
/-! PROOFS. The round trip of 30_encoding.md: the decoder as a search among disjoint rows, and the
canonical word of what it answers. -/

namespace Sys2Proof.Machine

/-! ### The decoder as a search among disjoint rows -/

/-- In a list where no two elements pass a test together, the search finds the one that passes. -/
theorem find?_eq_some_of_pairwise {α : Type} {p : α → Bool} {l : List α} {a : α}
    (hl : l.Pairwise fun x y => p x = true → p y = false) (ha : a ∈ l) (hp : p a = true) :
    l.find? p = some a := by
  induction l with
  | nil => exact absurd ha List.not_mem_nil
  | cons x l ih =>
    obtain ⟨hx, htail⟩ := List.pairwise_cons.mp hl
    rcases List.mem_cons.mp ha with rfl | ha
    · exact List.find?_cons_of_pos hp
    · have hxp : ¬ p x = true := fun h => by simp [hx a ha h] at hp
      rw [List.find?_cons_of_neg hxp]
      exact ih htail ha

/-- Two rows that one word matches have the same pattern where both masks look. -/
theorem patterns_agree_of_match {cw : CommandWord} {a b : Row} (ha : cw &&& a.mask = a.pattern)
    (hb : cw &&& b.mask = b.pattern) : (a.pattern ^^^ b.pattern) &&& (a.mask &&& b.mask) = 0 := by
  have hbit : ∀ w m n : Bool, (((w && m) ^^ (w && n)) && (m && n)) = false := by decide
  rw [← ha, ← hb]
  ext j hj
  simpa using hbit cw[j] a.mask[j] b.mask[j]

/-- R54: the row that a word matches is the one the decoder takes. -/
theorem decode_of_row {cw : CommandWord} {r : Row} (hr : r ∈ opcodeRows)
    (h : cw &&& r.mask = r.pattern) : decode cw = .ok (r.build cw) := by
  have hfind : opcodeRows.find? (fun r => cw &&& r.mask == r.pattern) = some r := by
    refine find?_eq_some_of_pairwise (opcodeRows_disjoint.imp fun {a b} hab ha => ?_) hr (by simpa)
    exact beq_false_of_ne fun hb => hab (patterns_agree_of_match (eq_of_beq ha) hb)
  rw [decode, hfind]

/-- R58: the word of a well-formed instruction stands on the row that builds the instruction. -/
theorem encode_on_row (i : Instr) : Laws.Encoding.Statement i :=
  match i with
  | .idle => Laws.Encoding.idle
  | .init => Laws.Encoding.init
  | .dec0 => Laws.Encoding.dec0
  | .dec1 => Laws.Encoding.dec1
  | .dec2 => Laws.Encoding.dec2
  | .dec3 => Laws.Encoding.dec3
  | .dec4 => Laws.Encoding.dec4
  | .dec5 => Laws.Encoding.dec5
  | .dec6 => Laws.Encoding.dec6
  | .dec7 => Laws.Encoding.dec7
  | .dec8 => Laws.Encoding.dec8
  | .dec9 => Laws.Encoding.dec9
  | .dec10 => Laws.Encoding.dec10
  | .dec11 => Laws.Encoding.dec11
  | .dec12 => Laws.Encoding.dec12
  | .dec13 => Laws.Encoding.dec13
  | .dec14 => Laws.Encoding.dec14
  | .dec15 => Laws.Encoding.dec15
  | .initdec w => Laws.Encoding.initdec w

/-! ### The canonical word -/

/-- R58: without a code the canonical word has its low byte clear. -/
theorem canonicalWord_without_code (i : Bool) (w : CodeWord) :
    canonicalWord (cwOf i false w) = cwOf i false 0 := by
  simp [canonicalWord, cwOf_and_0x300]

theorem canonicalWord_with_code (i : Bool) (w : CodeWord) :
    canonicalWord (cwOf i true w) = cwOf i true w := by
  simp [canonicalWord]

theorem wf_decInstr : ∀ c : Code, (decInstr c).wf = true := by
  decide

/-- R58: the canonical word of DECc, by the fields. -/
theorem encode_decInstr_codeOf {w : CodeWord} (hw : w.toNat ≤ 15) :
    encode (decInstr (codeOf w)) = cwOf false true w := by
  have hcode : w = (codeOf w).setWidth 8 := (validCode_and_codeOf_iff w _).mp ⟨hw, rfl⟩
  rw [encode_decInstr, ← cwOf_dec_eq, ← hcode]

/-! ### Table words -/

theorem decodeTableWord_eq_some_iff {nbits w : Nat} {i : Instr} :
    decodeTableWord nbits w = some i ↔
      ∃ cw, tableWord? nbits w = some cw ∧ decode cw = .ok i := by
  unfold decodeTableWord
  cases tableWord? nbits w with
  | none => simp
  | some cw => cases hcw : decode cw <;> simp [hcw]

/-! ### The statements -/

/-- Settles O2: the word stands on the row that builds the instruction, and no other row matches. -/
theorem decodeEncodeRoundTrip : Obligations.DecodeEncodeRoundTrip := by
  intro i hwf
  obtain ⟨r, hr, hmatch, hbuild⟩ := encode_on_row i hwf
  rw [decode_of_row hr hmatch, hbuild]

/-- Settles O3, by the four rows that build an instruction. -/
theorem encodeDecodeIsCanonical : Obligations.EncodeDecodeIsCanonical := by
  intro cw instr h
  obtain ⟨i, v, w, rfl⟩ : ∃ i v w, cw = cwOf i v w := ⟨_, _, _, (cwOf_fields cw).symm⟩
  rcases (decode_cwOf_eq_ok_iff i v w instr).mp h with ⟨rfl, rfl, rfl⟩ | ⟨rfl, rfl, rfl⟩ |
    ⟨rfl, rfl, hw, rfl⟩ | ⟨rfl, rfl, hw, rfl⟩
  · exact ⟨rfl, (canonicalWord_without_code false w).symm⟩
  · exact ⟨rfl, (canonicalWord_without_code true w).symm⟩
  · rw [canonicalWord_with_code]
    exact ⟨wf_decInstr (codeOf w), encode_decInstr_codeOf hw⟩
  · exact ⟨decide_eq_true hw, (canonicalWord_with_code true w).symm⟩

/-- Settles O1: each word by its fields, and the number 0x400 as one that no 10 wires hold. -/
theorem tableWordsDecode : Obligations.TableWordsDecode := by
  refine ⟨decode_idle 0x00#8, decode_idle 0xFF#8, decode_init 0x00#8, decode_dec 0x00#8 (by decide),
    decode_dec 0x0B#8 (by decide), decode_initdec 15#8 (by decide),
    decode_invalidCode 16#8 (by decide), decode_initInvalidCode 255#8 (by decide), ?_, rfl, rfl⟩
  exact decodeTableWord_eq_some_iff.mpr ⟨0x107#10, rfl, decode_dec 0x07#8 (by decide)⟩

end Sys2Proof.Machine
end

section
/-! PROOFS. The step and its runs: what one step takes (70_reset_and_hazards.md R140, R141), that
every run ends, the reset values, the output invariant of 10_state.md R19, and the decode in parts
(42_frame_decode.md R103). -/

namespace Sys2Proof.Machine

/-! ### One step, by the event at the ports -/

theorem step_of_decode_ok {s : State} {cw : CommandWord} {rest : List Event} {i : Instr}
    (hin : s.inputs = .command cw :: rest) (h : decode cw = .ok i) :
    step s = exec i { s with inputs := rest } := by
  simp [step, nextInput, State.dropInput, hin, h]

theorem step_of_decode_error {s : State} {cw : CommandWord} {rest : List Event} {r : Illegal}
    (hin : s.inputs = .command cw :: rest) (h : decode cw = .error r) :
    step s = .next (takeIllegal r { s with inputs := rest }) := by
  simp [step, nextInput, State.dropInput, hin, h]

theorem step_of_reset {s : State} {port : CommandWord} {rest : List Event}
    (hin : s.inputs = .reset port :: rest) :
    step s = .next (resetEvent port { s with inputs := rest }) := by
  simp [step, nextInput, State.dropInput, hin]

/-- R141: with no event left the engine is idle. -/
theorem step_of_no_inputs {s : State} (hin : s.inputs = []) : step s = .next s.quiet := by
  rcases step_cases s with ⟨-, hstep⟩ | ⟨e, rest, hcons, -⟩
  · exact hstep
  · simp [hin] at hcons

/-- A word that the table words number is the next instruction run (log 12). -/
theorem step_withFetchWord {nbits w : Nat} {i : Instr} (h : decodeTableWord nbits w = some i)
    (s : State) : step (s.withFetchWord nbits w) = exec i s := by
  obtain ⟨cw, hword, hdecode⟩ := decodeTableWord_eq_some_iff.mp h
  simp only [State.withFetchWord, hword]
  exact step_of_decode_ok (State.pushCommand_inputs s cw) hdecode

/-- What a step answers: the state with `sample_valid` lowered, or the effect of an event. -/
theorem eq_quiet_or_effect_of_step {s t : State} (h : step s = .next t) :
    t = s.quiet ∨ ∃ e rest, t = effect e { s with inputs := rest } := by
  rcases step_cases s with ⟨-, hstep⟩ | ⟨e, rest, -, hstep⟩
  · exact .inl (Host.Outcome.next.inj (h.symm.trans hstep))
  · exact .inr ⟨e, rest, Host.Outcome.next.inj (h.symm.trans hstep)⟩

/-- Every step answers a next state and takes the event at the ports. -/
theorem exists_step (s : State) : ∃ t, step s = .next t ∧ t.inputs = s.inputs.tail := by
  rcases step_cases s with ⟨hin, hstep⟩ | ⟨e, rest, hin, hstep⟩
  · exact ⟨s.quiet, hstep, by simp [hin]⟩
  · exact ⟨_, hstep, by simp [hin]⟩

/-- R141: steps with no event left keep the registers and the samples. -/
theorem runSteps_of_no_inputs (n : Nat) {s : State} (hin : s.inputs = []) :
    ∃ t, runSteps n s = .next t ∧ SameEngine s t := by
  induction n generalizing s with
  | zero => exact ⟨s, rfl, rfl, rfl, rfl, rfl, rfl⟩
  | succ n ih =>
    obtain ⟨t, hrun, hsame⟩ := ih (s := s.quiet) hin
    refine ⟨t, ?_, hsame⟩
    rw [runSteps, step_of_no_inputs hin]
    exact hrun

/-! ### The output invariant -/

/-- A sample just emitted, with ERR = 0, is what the outputs promise. -/
theorem outputsAgree_of_emitted {t : State} (he : t.err = false)
    (hs : t.samples.getLast? = some t.pred) : OutputsAgree t :=
  ⟨fun _ => ⟨he, hs⟩, fun _ => hs⟩

/-- Without a valid sample the outputs promise only that a predictor that is not 0 was emitted
last. -/
theorem outputsAgree_of_no_sample {t : State} (hv : t.sampleValid = false)
    (hs : t.pred ≠ 0 → t.samples.getLast? = some t.pred) : OutputsAgree t :=
  ⟨fun h => absurd (hv.symm.trans h) Bool.false_ne_true, hs⟩

theorem outputsAgree_of_fresh {t : State} (hv : t.sampleValid = false) (hp : t.pred = 0) :
    OutputsAgree t :=
  outputsAgree_of_no_sample hv fun h => absurd hp h

theorem outputsAgree_decStep (c : Code) {s : State} (he : s.err = false) :
    OutputsAgree (decStep c s) :=
  outputsAgree_of_emitted he (by simp)

theorem OutputsAgree.quiet {s : State} (h : OutputsAgree s) : OutputsAgree s.quiet :=
  outputsAgree_of_no_sample rfl h.2

/-- Every kind of event keeps the output invariant. -/
theorem OutputsAgree.effect {s : State} (h : OutputsAgree s) (e : Event) :
    OutputsAgree (effect e s) := by
  cases kind e s with
  | fresh _ _ _ eq => exact eq ▸ outputsAgree_of_fresh rfl rfl
  | quiet _ _ _ eq => exact eq ▸ h.quiet
  | step w _ _ _ notFrozen _ _ eq => exact eq ▸ outputsAgree_decStep (codeOf w) notFrozen
  | startStep w _ _ _ _ eq => exact eq ▸ outputsAgree_decStep (codeOf w) (freshStart_err s)
  | raise _ _ _ _ _ eq => exact eq ▸ outputsAgree_of_no_sample rfl h.2
  | startRaise _ _ _ _ eq => exact eq ▸ outputsAgree_of_fresh rfl rfl

/-! ### A decode in parts -/

/-- R103: a decode followed by further codes is the decode of all of them. -/
theorem frame_append (a b : List CodeWord) : frame a ++ chunk b = frame (a ++ b) := by
  simp [frame, chunk]

/-- A decode ends alike from any two states of one engine (R105). -/
theorem frame_endAlike (ws : List CodeWord) {s s' : State} (h : s.table = s'.table) :
    EndAlike s s' (effects (frame ws) s) (effects (frame ws) s') :=
  (freshStart_endAlike s s').trans ((freshStart_sameElements h).effects_endAlike (chunk ws) rfl)

/-! ### The statements -/

/-- Settles O35: a step is an IDLE, which keeps the predictor and the samples, or the effect of an
event. -/
theorem stepKeepsOutputsAgree : Obligations.StepKeepsOutputsAgree := by
  intro s t h hstep
  rcases eq_quiet_or_effect_of_step hstep with rfl | ⟨e, rest, rfl⟩
  · exact h.quiet
  · exact OutputsAgree.effect (s := { s with inputs := rest }) h e

/-- Settles O34: at reset no sample is valid and the predictor is 0. -/
theorem resetOutputsAgree : Obligations.ResetOutputsAgree :=
  outputsAgree_of_fresh rfl rfl

/-- Settles O8: a run is the effect of its events, and with no event left every step is IDLE. -/
theorem everyRunCompletes : Obligations.EveryRunCompletes :=
  ⟨exists_step, fun es s => ⟨_, play_eq es s, rfl⟩, fun _ n hin => runSteps_of_no_inputs n hin⟩

/-- Settles O7, by the cases of the step. -/
theorem stepRunsTheDecodedInstruction : Obligations.StepRunsTheDecodedInstruction :=
  ⟨fun _ _ _ _ => step_of_decode_ok, fun _ _ _ _ => step_of_decode_error,
    fun _ _ _ => step_of_reset, fun _ => step_of_no_inputs,
    fun s _ _ _ h => step_withFetchWord h s⟩

/-- Settles O12: the reset state as it is written, and RESET as the fresh start. -/
theorem resetValues : Obligations.ResetValues :=
  ⟨⟨rfl, rfl, rfl, rfl, rfl, rfl, rfl, rfl⟩,
    fun port s => ⟨freshStart s, step_present (.reset port) s, rfl, rfl, rfl, rfl, rfl⟩⟩

/-- Settles O17: INITDEC of the first code has the effect of INIT and DEC, and the rest is the same
run. -/
theorem frameMayStartWithInitdec : Obligations.FrameMayStartWithInitdec := by
  intro w codes s
  rw [play_eq, play_eq, effects_cons, effect_initdecEvent_eq_effects, ← effects_append]
  rfl

/-- Settles O39: IDLE commands leave no trace, and after an INIT the end is that of any decode of the
same codes. -/
theorem chunkingIsInvisible : Obligations.ChunkingIsInvisible := by
  refine ⟨fun a b es s hes => ?_, fun a b s s' hT => ?_⟩
  · have hsame : SameEngine s s := ⟨rfl, rfl, rfl, rfl, rfl⟩
    have hend := hsame.effects_filter_isIdle es
    rw [hes, frame_append] at hend
    exact ⟨_, _, play_eq es s, play_eq _ s, hend.with_no_inputs⟩
  · have hTa : (effects (frame a) s).table = s'.table := by rw [effects_table, hT]
    obtain ⟨hp, hi, he, -, new, hnew, hnew'⟩ := frame_endAlike b hTa
    rw [← effects_append] at hp hi he hnew
    exact ⟨_, _, _, new, play_eq _ s, play_eq _ s, play_eq _ s', hp, hi, he, hnew, hnew'⟩

end Sys2Proof.Machine
end

section
/-! PROOFS. The arithmetic of 41_decode_step.md: the difference against the multiply-first formula
(R81), the bounds of the intermediates (R80), the datapath at the hardware widths (decision D10), and
the tables of 20_memory.md as parameter and default. -/

namespace Sys2Proof.Machine

open Sys2Proof.Config

/-! ### The difference -/

/-- The magnitude of a code as the number its three bits make (R51, R53). -/
theorem magnitude_eq : ∀ c : Code, c.toNat % 8 =
    4 * bitValue (c.getLsbD 2) + 2 * bitValue (c.getLsbD 1) + bitValue (c.getLsbD 0) := by
  decide

/-- A gated term is at most the term. -/
theorem bitValue_mul_le (b : Bool) (t : Nat) : bitValue b * t ≤ t := by
  cases b <;> simp [bitValue]

/-- R81: 8 times the difference is the product less what the truncations of its terms lose. -/
theorem product_eq_difference_add_lost (step : Nat) (c : Code) :
    (2 * (c.toNat % 8) + 1) * step =
      8 * difference step c + (step % 8 + bitValue (c.getLsbD 1) * (4 * (step % 2))
        + bitValue (c.getLsbD 0) * (2 * (step % 4))) := by
  have h8 := (Nat.div_add_mod step 8).symm
  have h2 := (Nat.div_add_mod step 2).symm
  have h4 := (Nat.div_add_mod step 4).symm
  rw [difference_eq, magnitude_eq]
  linear_combination h8 + 4 * bitValue (c.getLsbD 1) * h2 + 2 * bitValue (c.getLsbD 0) * h4

/-- R81: what is lost is at most 7 + 4 + 6, less than three times 8, and nothing at multiples of 8. -/
theorem difference_multipliedDifference (step : Nat) (c : Code) :
    difference step c ≤ multipliedDifference step (c.toNat % 8) ∧
    multipliedDifference step (c.toNat % 8) ≤ difference step c + 2 ∧
    (step % 8 = 0 → difference step c = multipliedDifference step (c.toNat % 8)) := by
  have h1 := bitValue_mul_le (c.getLsbD 1) (4 * (step % 2))
  have h0 := bitValue_mul_le (c.getLsbD 0) (2 * (step % 4))
  rw [multipliedDifference, product_eq_difference_add_lost]
  omega

theorem differenceRows_spec : ∀ row ∈ differenceRows,
    [7, 8, 16, 337, 32767].map (fun step => difference step row.1) = row.2 := by
  decide

/-- The difference with all three magnitude bits set is the largest. -/
theorem difference_le (step : Nat) (c : Code) :
    difference step c ≤ step / 8 + step + step / 2 + step / 4 := by
  have h2 := bitValue_mul_le (c.getLsbD 2) step
  have h1 := bitValue_mul_le (c.getLsbD 1) (step / 2)
  have h0 := bitValue_mul_le (c.getLsbD 0) (step / 4)
  rw [difference_eq]
  omega

theorem difference_stepRead_le (T : StepTable) (i : StepIndex) (c : Code) :
    difference (stepRead T i) c ≤ 61436 := by
  have hstep := (stepRead_bounds T i).2
  have hdiff := difference_le (stepRead T i) c
  omega

/-- With a step of 4 or more each of the three gated terms is positive. -/
theorem difference_eq_zero_iff {step : Nat} (hstep : 4 ≤ step) (c : Code) :
    difference step c = 0 ↔ step < 8 ∧ c.toNat % 8 = 0 := by
  rw [difference_eq, magnitude_eq]
  simp only [Nat.add_eq_zero_iff, Nat.mul_eq_zero]
  omega

/-- R31, R32: no step read is below that of index 0. -/
theorem seven_le_stepRead (T : StepTable) (i : StepIndex) : 7 ≤ stepRead T i :=
  stepRead_zero T ▸ stepRead_mono T (Fin.zero_le i)

/-! ### The sum and the index sum -/

theorem updatedPredictor_bounds (p : Sample) {diff : Nat} (h : diff ≤ 61436) (c : Code) :
    -94204 ≤ updatedPredictor p.toInt diff c ∧ updatedPredictor p.toInt diff c ≤ 94203 := by
  have hlo : -32768 ≤ p.toInt := BitVec.le_toInt p
  have hhi : p.toInt < 32768 := BitVec.toInt_lt
  unfold updatedPredictor
  split <;> omega

theorem updatedIndex_bounds (i : StepIndex) (c : Code) :
    -1 ≤ updatedIndex i c ∧ updatedIndex i c ≤ 96 := by
  have hi := i.isLt
  have ⟨hlo, hhi⟩ := adjRead_bounds c
  unfold updatedIndex
  omega

/-! ### The datapath at the hardware widths -/

/-- A gated term at a hardware width. -/
theorem toNat_gate {n : Nat} (b : Bool) (x : BitVec n) :
    (if b = true then x else 0).toNat = bitValue b * x.toNat := by
  cases b <;> simp [bitValue]

/-- 16 bits hold the difference. -/
theorem toNat_hwDifference (step : BitVec 15) (c : Code) :
    (hwDifference step c).toNat = difference step.toNat c := by
  have hstep : step.toNat < 32768 := step.isLt
  have hwide : step.toNat % 65536 = step.toNat := Nat.mod_eq_of_lt (by omega)
  have hdiff := difference_le step.toNat c
  simp only [difference_eq, hwDifference, BitVec.toNat_add, toNat_gate, BitVec.toNat_ushiftRight,
    BitVec.toNat_setWidth, Nat.shiftRight_eq_div_pow, Nat.reducePow, hwide] at hdiff ⊢
  omega

/-- 18 bits hold the sum. -/
theorem toInt_hwSum (p : Sample) {diff : BitVec 16} (h : diff.toNat ≤ 61436) (c : Code) :
    (hwSum 18 p diff c).toInt = updatedPredictor p.toInt diff.toNat c := by
  have ⟨hlo, hhi⟩ := updatedPredictor_bounds p h c
  have hp : (p.signExtend 18).toInt = p.toInt := BitVec.toInt_signExtend_of_le (by decide)
  have hd : (diff.setWidth 18).toInt = diff.toNat := by
    rw [BitVec.toInt_setWidth]
    exact Int.bmod_eq_of_le (by omega) (by omega)
  have hbmod : (updatedPredictor p.toInt diff.toNat c).bmod (2 ^ 18) =
      updatedPredictor p.toInt diff.toNat c := Int.bmod_eq_of_le (by omega) (by omega)
  rw [← hbmod, hwSum, updatedPredictor, signBit]
  split
  · rw [BitVec.toInt_sub, hp, hd]
  · rw [BitVec.toInt_add, hp, hd]

/-- The clamp of an 18-bit sum is the exact clamp, stored. -/
theorem hwClampPredictor_eq (sum : BitVec 18) :
    hwClampPredictor 18 sum = BitVec.ofInt 16 (clampPredictor sum.toInt) := by
  have hmin : (BitVec.ofInt 18 (-32768)).toInt = -32768 := rfl
  have hmax : (BitVec.ofInt 18 32767).toInt = 32767 := rfl
  simp only [hwClampPredictor, clampPredictor_eq, BitVec.slt_iff_toInt_lt, hmin, hmax]
  split
  · rfl
  · split
    · rfl
    · exact (BitVec.signExtend_eq_setWidth_of_le sum (by decide)).symm

theorem hwPredictor_eq (c : Code) (s : State) :
    hwPredictor 18 (BitVec.ofNat 15 (stepRead s.table s.idx)) s.pred c = (decStep c s).pred := by
  have hdiff := toNat_hwDifference (BitVec.ofNat 15 (stepRead s.table s.idx)) c
  rw [toNat_ofNat_stepRead] at hdiff
  rw [hwPredictor, hwClampPredictor_eq, toInt_hwSum _ (hdiff ▸ difference_stepRead_le _ _ c), hdiff,
    decStep_eq]

/-- 8 bits hold the index sum. -/
theorem toInt_hwIndexSum (i : StepIndex) (c : Code) :
    ((BitVec.ofNat 7 i.val).setWidth 8 + (BitVec.ofInt 5 (adjRead c)).signExtend 8).toInt
      = updatedIndex i c := by
  have ⟨hlo, hhi⟩ := updatedIndex_bounds i c
  have hi : ((BitVec.ofNat 7 i.val).setWidth 8).toInt = i.val := by
    have hlt := i.isLt
    rw [BitVec.toInt_setWidth, BitVec.toNat_ofNat, Nat.mod_eq_of_lt (by omega)]
    exact Int.bmod_eq_of_le (by omega) (by omega)
  rw [BitVec.toInt_add, hi, BitVec.toInt_signExtend_of_le (by decide), toInt_ofInt_adjRead,
    ← updatedIndex]
  exact Int.bmod_eq_of_le (by omega) (by omega)

/-- The clamp of the 8-bit index sum is the exact clamp, stored. -/
theorem hwIndex_eq (i : StepIndex) (c : Code) :
    hwIndex (BitVec.ofNat 7 i.val) c = BitVec.ofInt 7 (clamp (updatedIndex i c) 0 88) := by
  have hmin : (0#8).toInt = 0 := rfl
  have hmax : (88#8).toInt = 88 := rfl
  simp only [hwIndex, clamp, BitVec.slt_iff_toInt_lt, toInt_hwIndexSum, hmin, hmax]
  split
  · rfl
  · split
    · rfl
    · rw [← toInt_hwIndexSum]
      exact (BitVec.signExtend_eq_setWidth_of_le _ (by decide)).symm

theorem hwIndex_idxO (c : Code) (s : State) : hwIndex (idxO s) c = idxO (decStep c s) := by
  rw [idxO, hwIndex_eq, ← clampIndex_val, BitVec.ofInt_natCast]
  rfl

/-! ### The default table -/

/-- The default's neighbours rise, so all of it does (20_memory.md R33). -/
theorem stepRead_default_strictMono {i j : StepIndex} (h : i < j) :
    stepRead stepTable i < stepRead stepTable j := by
  have hchain : stepEntries.IsChain (· < ·) := by simp [stepEntries]
  exact List.pairwise_iff_getElem.mp (List.isChain_iff_pairwise.mp hchain) _ _ _ _ h

/-! ### The statements -/

/-- Settles O22: 8 times the difference is the product (2m+1) * step less what the truncations lose,
which is below 24. -/
theorem differenceIsSumOfTruncatedTerms : Obligations.DifferenceIsSumOfTruncatedTerms :=
  ⟨difference_eq, differenceRows_spec, difference_multipliedDifference, by decide, by decide⟩

/-- Settles O23: the bound of the step gives that of the difference, and this that of the sum; a step
of 7 or more makes every gated term positive. -/
theorem intermediateBounds : Obligations.IntermediateBounds := by
  refine ⟨fun T i c p => ?_, by decide, by decide, by decide, by decide, by decide⟩
  have hstep := (stepRead_bounds T i).2
  have hseven := seven_le_stepRead T i
  have hdiff := difference_stepRead_le T i c
  have ⟨hsumLo, hsumHi⟩ := updatedPredictor_bounds p hdiff c
  have ⟨hidxLo, hidxHi⟩ := updatedIndex_bounds i c
  exact ⟨by omega, by omega, by omega, hdiff, hsumLo, hsumHi, hidxLo, hidxHi,
    difference_eq_zero_iff (by omega) c⟩

/-- Settles O24: each hardware value holds the exact one at its width, so the clamps compare the same
numbers; the narrower sums wrap at the step 32767, the predictor 32767 and the code 7. -/
theorem fixedWidthDatapathIsExact : Obligations.FixedWidthDatapathIsExact := by
  refine ⟨fun c s => ⟨hwPredictor_eq c s, hwIndex_idxO c s⟩, fun n hn => ?_⟩
  refine ⟨32767#15, 32767#16, 7#4, by decide, ?_⟩
  rcases List.mem_pair.mp hn with rfl | rfl
  · decide
  · decide

/-- Settles O43: the check accepts such a list as it is, and neither an IDLE nor the effect of an event
writes the table. -/
theorem tableIsAParameterNoStepWrites : Obligations.TableIsAParameterNoStepWrites := by
  refine ⟨fun l h => ⟨_, stepTableOf?_of_constraints h, rfl, rfl, rfl, rfl⟩, fun s t hstep => ?_,
    fun es T => ⟨_, play_eq es _, effects_table es _⟩⟩
  rcases eq_quiet_or_effect_of_step hstep with rfl | ⟨e, rest, rfl⟩
  · rfl
  · exact effect_table e _

/-- Settles O28: every table has 89 entries, the sum and the two reads compute, and the default's
neighbours rise. -/
theorem defaultStepTableChecks : Obligations.DefaultStepTableChecks :=
  ⟨stepTable.length_entries, by decide, rfl, rfl, fun _ _ => stepRead_default_strictMono⟩

end Sys2Proof.Machine
end
